-- ==== Sys2Proof/Word.lean ====
section
/-! DEFINITION. The words of the machine: bytes and 16-bit words. An Address is a plain `Nat`: the spec gives it no upper
bound, so that address arithmetic never truncates or wraps (rules R10, R20; log 12). -/

namespace Sys2Proof

/-- A memory cell, an opcode, the status byte (rule R6). -/
abbrev Byte := BitVec 8

/-- The accumulator, the direct-page register, a two-byte operand (rule R6). -/
abbrev Word := BitVec 16

end Sys2Proof
end

