-- ==== Sys2Proof/Machine/Flags.lean ====
section
/-! DEFINITION. The status byte P: its bits, their mode-aware readings and every flag computation of the spec. -/

namespace Sys2Proof.Machine

/-- Positions in P (rule R23). Bits 4 and 5 have two names, chosen by E. -/
def carryBit : Nat := 0
def zeroBit : Nat := 1
def irqDisableBit : Nat := 2
def decimalBit : Nat := 3
def breakOrIndexBit : Nat := 4
def accWidthBit : Nat := 5
def overflowBit : Nat := 6
def negativeBit : Nat := 7

/-- `P[i]` (rule R11). -/
def flag (p : Byte) (i : Nat) : Bool := p.getLsbD i

/-- `P[i] <- b`, the other bits kept. -/
def setFlag (p : Byte) (i : Nat) (b : Bool) : Byte :=
  if b then p ||| (1#8 <<< i) else p &&& ~~~(1#8 <<< i)

/-- The readings of P that are the same in both modes (rule R34). -/
def carry (p : Byte) : Bool := flag p carryBit
def zero (p : Byte) : Bool := flag p zeroBit
def irqDisable (p : Byte) : Bool := flag p irqDisableBit
def decimal (p : Byte) : Bool := flag p decimalBit
def overflow (p : Byte) : Bool := flag p overflowBit
def negative (p : Byte) : Bool := flag p negativeBit

/-- Effective accumulator width, `E | P[5]`: true means 8 bits (rule R17). -/
def accIs8 (e : Bool) (p : Byte) : Bool := e || flag p accWidthBit

/-- The index-register analogue, `E | P[4]`; no rule reads it (rule R34; log 16). -/
def indexIs8 (e : Bool) (p : Byte) : Bool := e || flag p breakOrIndexBit

/-- Break, which bit 4 is only in emulation mode; in native mode there is no such reading (rule R34, log 23). -/
def breakFlag (e : Bool) (p : Byte) : Option Bool := if e then some (flag p breakOrIndexBit) else none

/-- INDEX_8BIT, which bit 4 is only in native mode (rule R23, log 23). -/
def indexWidthFlag (e : Bool) (p : Byte) : Option Bool := if e then none else some (flag p breakOrIndexBit)

/-- ACC_8BIT, which bit 5 is only in native mode (rule R23, log 23). -/
def accWidthFlag (e : Bool) (p : Byte) : Option Bool := if e then none else some (flag p accWidthBit)

/-- CLC's computation (rule R91). -/
def clearCarry (p : Byte) : Byte := setFlag p carryBit false

/-- SEI's computation (rule R92). -/
def setIrqDisable (p : Byte) : Byte := setFlag p irqDisableBit true

/-- REP's computation, `P & ~mask` at 8 bits (rules R89, R93). -/
def clearMask (p mask : Byte) : Byte := p &&& ~~~mask

/-- `SetTransferFlags(v, w)`: Zero from the value, Negative from its most significant bit at its own width (rule R87). The
width is the type's; the callers use 8 and 16. -/
def setTransferFlags (w : Nat) (v : BitVec w) (p : Byte) : Byte :=
  setFlag (setFlag p zeroBit (v == 0#w)) negativeBit v.msb

/-- XCE's computation on P: Carry takes the old E, then the adjustment of the switch. With no switch bits 4 and 5 stay
(rule R98; the no-switch rows are the spec's decision D7, log 10). -/
def exchangeFlags (oldE : Bool) (p : Byte) : Byte :=
  let exchanged := setFlag p carryBit oldE
  match oldE, carry p with
  | true, false => setFlag (setFlag exchanged breakOrIndexBit true) accWidthBit true
  | false, true => setFlag exchanged breakOrIndexBit false
  | true, true => exchanged
  | false, false => exchanged

end Sys2Proof.Machine
end

