-- ==== Sys2Proof/Config.lean ====
section
/-! DEFINITION. What is fixed before a run: the constants of the cartridge's layout, and the values the model names
where the spec leaves a parameter open (rules R8, R9, R125). The model needs no free value: every result of the
spec's eight opcodes is stated. -/

namespace Sys2Proof

/-- ROM file offset of the reset vector's low byte (rule R124). -/
def Config.resetVectorOffset : Nat := 0x7FFC

/-- The shortest ROM that has a reset vector (rules R8, R125). -/
def Config.minRomSize : Nat := 0x7FFE

/-- What a ROM byte inside ROM_SIZE that the state does not list reads as.
DESIGN CHOICE (log 2), unsafe for claims about `State.reset` only: the spec leaves the ROM's contents open, and its test
vectors fill unlisted bytes with this value. -/
def Config.blankRomByte : Byte := 0xFF#8

/-- ROM_SIZE of the blank cartridge in `State.reset`.
DESIGN CHOICE (log 3), unsafe for claims about `State.reset` only: the size the spec's test vectors use. -/
def Config.resetRomSize : Nat := 0x8000

/-- RESET_A at `State.reset`. DESIGN CHOICE (log 5), unsafe: the spec and the family give none. -/
def Config.resetA : Word := 0x0000#16

/-- RESET_DP at `State.reset`. PRESUMED (log 4), unsafe: the 65816 family's value, named in rule R38. -/
def Config.resetDp : Word := 0x0000#16

/-- RESET_P at `State.reset`. PRESUMED (log 4), unsafe: the 65816 family's value, named in rule R38. -/
def Config.resetP : Byte := 0x34#8

/-- RESET_E at `State.reset`. PRESUMED (log 4), unsafe: the 65816 family's value, named in rule R38. -/
def Config.resetE : Bool := true

end Sys2Proof
end

