-- ==== Sys2Proof/Syntax.lean ====
section
/-! DEFINITION. The instructions: one constructor per row of spec/opcode_table.json (rules R70, R78). -/

namespace Sys2Proof

/-- The eight opcodes, LDA in its two forms. Operand bytes are not checked by the hardware (rule R74), so every value
of an operand's width is an operand. -/
inductive Instr where
  /-- CLC, clear Carry (rule R91). -/
  | clc
  /-- TCD, transfer the accumulator to the direct-page register (rule R94). -/
  | tcd
  /-- SEI, set IRQ-disable (rule R92). -/
  | sei
  /-- STA abs, the staged store of the accumulator; `addr` is an offset in bank 0 (rule R96). -/
  | sta (addr : Word)
  /-- STZ abs, the staged store of zero; `addr` is an offset in bank 0 (rule R97). -/
  | stz (addr : Word)
  /-- LDA #const in its 8-bit form, the form when acc8 = 1 (rules R72, R95). -/
  | ldaImm8 (imm : Byte)
  /-- LDA #const in its 16-bit form, the form when acc8 = 0 (rules R72, R95). -/
  | ldaImm16 (imm : Word)
  /-- REP #imm, clear the flag bits named by a mask (rule R93). -/
  | rep (mask : Byte)
  /-- XCE, exchange Carry with the emulation-mode flag (rule R98). -/
  | xce
  deriving DecidableEq, Repr

/-- The mnemonic, as spec/opcode_table.json spells it. -/
def Instr.mnemonic : Instr → String
  | .clc => "CLC"
  | .tcd => "TCD"
  | .sei => "SEI"
  | .sta _ => "STA"
  | .stz _ => "STZ"
  | .ldaImm8 _ => "LDA"
  | .ldaImm16 _ => "LDA"
  | .rep _ => "REP"
  | .xce => "XCE"

/-- Total encoded size in bytes, opcode byte included (rules R66, R84). -/
def Instr.size : Instr → Nat
  | .clc => 1
  | .tcd => 1
  | .sei => 1
  | .sta _ => 3
  | .stz _ => 3
  | .ldaImm8 _ => 2
  | .ldaImm16 _ => 3
  | .rep _ => 2
  | .xce => 1

end Sys2Proof
end

