-- ==== Sys2Proof/Decode.lean ====
section
/-! DEFINITION. From bytes to instructions (total, rejecting by name) and back. -/

namespace Sys2Proof

/-- `byte[0] | byte[1] << 8 | ...`: the byte at the lowest address is the least significant (rules R50, R52). -/
def combineLE : List Byte → Nat
  | [] => 0
  | b :: bs => b.toNat ||| (combineLE bs <<< 8)

/-- What stands behind an opcode byte: nothing, one operand byte, or two (rule R66). The function builds the
instruction from its operand. -/
inductive OperandForm where
  | none (i : Instr)
  | byte (build : Byte → Instr)
  | word (build : Word → Instr)

/-- Size of an instruction of this form (rule R68). -/
def OperandForm.size : OperandForm → Nat
  | .none _ => 1
  | .byte _ => 2
  | .word _ => 3

/-- The opcode table (rules R70, R78). The opcode byte alone selects the instruction (rule R69); acc8 selects the form
of `0xA9` only (rule R72). The other 248 byte values stand for nothing (rule R73; log 14). -/
def decodeOpcode (acc8 : Bool) (opcode : Byte) : Option OperandForm :=
  if opcode = 0x18#8 then some (.none .clc)
  else if opcode = 0x5B#8 then some (.none .tcd)
  else if opcode = 0x78#8 then some (.none .sei)
  else if opcode = 0x8D#8 then some (.word .sta)
  else if opcode = 0x9C#8 then some (.word .stz)
  else if opcode = 0xA9#8 then some (if acc8 then .byte .ldaImm8 else .word .ldaImm16)
  else if opcode = 0xC2#8 then some (.byte .rep)
  else if opcode = 0xFB#8 then some (.none .xce)
  else none

/-- `Size(opcode, acc8)` of rule R68; `none` is its "no size". -/
def opcodeSize (acc8 : Bool) (opcode : Byte) : Option Nat :=
  (decodeOpcode acc8 opcode).map OperandForm.size

/-- Why a list of bytes is no instruction. -/
inductive DecodeError where
  /-- There is no opcode byte. -/
  | noBytes
  /-- The opcode byte is not one of the eight (rule R73). -/
  | illegalOpcode (opcode : Byte)
  /-- The list ends before the last operand byte. -/
  | missingOperand (opcode : Byte)
  deriving DecidableEq, Repr

/-- The instruction at the head of a list of bytes, in address order, with the bytes behind it (rules R65 to R68). -/
def decode (acc8 : Bool) : List Byte → Except DecodeError (Instr × List Byte)
  | [] => .error .noBytes
  | opcode :: rest =>
    match decodeOpcode acc8 opcode, rest with
    | none, _ => .error (.illegalOpcode opcode)
    | some (.none i), rest => .ok (i, rest)
    | some (.byte build), b :: rest => .ok (build (BitVec.ofNat 8 (combineLE [b])), rest)
    | some (.word build), lo :: hi :: rest => .ok (build (BitVec.ofNat 16 (combineLE [lo, hi])), rest)
    | some _, _ => .error (.missingOperand opcode)

/-- The two bytes of a word as the hardware stores them, low byte first (rule R52). -/
def wordBytes (v : Word) : List Byte := [v.extractLsb' 0 8, v.extractLsb' 8 8]

/-- The bytes of an instruction, written from the format table (rules R66, R70). -/
def encode : Instr → List Byte
  | .clc => [0x18#8]
  | .tcd => [0x5B#8]
  | .sei => [0x78#8]
  | .sta addr => 0x8D#8 :: wordBytes addr
  | .stz addr => 0x9C#8 :: wordBytes addr
  | .ldaImm8 imm => [0xA9#8, imm]
  | .ldaImm16 imm => 0xA9#8 :: wordBytes imm
  | .rep mask => [0xC2#8, mask]
  | .xce => [0xFB#8]

/-- The bytes of a table word: bit 0 is the least significant bit of the first byte, later bytes count on from it, and
every bit at or above `nbits` is 0; three bytes, the longest instruction (rule R65). -/
def tableBytes (nbits w : Nat) : List Byte :=
  let v := w % 2 ^ nbits
  [BitVec.ofNat 8 v, BitVec.ofNat 8 (v / 0x100), BitVec.ofNat 8 (v / 0x10000)]

/-- The accumulator width a table row asks for. Only LDA's two rows differ: the 2-byte row is the acc8 = 1 form, the
3-byte row the acc8 = 0 form (rule R78). -/
def tableAcc8 (nbits : Nat) : Bool := decide (nbits ≤ 16)

/-- The instruction the decoder reads from a word numbered as spec/opcode_table.json numbers its bits. -/
def decodeTableWord (nbits w : Nat) : Option Instr :=
  match decode (tableAcc8 nbits) (tableBytes nbits w) with
  | .ok (i, _) => some i
  | .error _ => none

end Sys2Proof
end

