-- ==== Sys2Proof/Machine/Cartridge.lean ====
section
/-! DEFINITION. The cartridge's bytes as plain data: a list of (file offset, byte) pairs in one canonical form. -/

namespace Sys2Proof.Machine

/-- `ROM(i)`: the listed byte at file offset `i`, or the blank byte where none is listed (rule R41, log 2). The bound
ROM_SIZE is `readByte`'s business (rule R49). -/
def Memory.byteAt : List Host.Cell → Nat → Byte
  | [], _ => Config.blankRomByte
  | (k, b) :: rest, i => if k = i then b else Memory.byteAt rest i

/-- Places one byte and keeps the canonical form. Only the loading of a cartridge uses it: the hardware has no write
path (rule R55). -/
def Memory.put : List Host.Cell → Nat → Byte → List Host.Cell
  | [], i, b => if b = Config.blankRomByte then [] else [(i, b)]
  | (k, c) :: rest, i, b =>
    if i < k then
      if b = Config.blankRomByte then (k, c) :: rest else (i, b) :: (k, c) :: rest
    else if i = k then
      if b = Config.blankRomByte then rest else (i, b) :: rest
    else (k, c) :: Memory.put rest i b

/-- Places consecutive bytes from a file offset on. -/
def Memory.putAll : List Host.Cell → Nat → List Byte → List Host.Cell
  | rom, _, [] => rom
  | rom, i, b :: bs => Memory.putAll (Memory.put rom i b) (i + 1) bs

/-- The cells of a ROM file, its first byte at offset `i` (rules R8, R128: the whole file is loaded). -/
def Memory.ofFile (i : Nat) : List Byte → List Host.Cell
  | [] => []
  | b :: bs => if b = Config.blankRomByte then Memory.ofFile (i + 1) bs else (i, b) :: Memory.ofFile (i + 1) bs

/-- Offsets strictly rising from `lo` on, and no byte listed that an unlisted offset reads as. -/
def Memory.risingFrom (lo : Nat) : List Host.Cell → Bool
  | [] => true
  | (k, b) :: rest => decide (lo ≤ k) && decide (b ≠ Config.blankRomByte) && Memory.risingFrom (k + 1) rest

/-- The canonical form of a cartridge of `size` bytes: rising, nothing blank listed, nothing listed past the end. -/
def Memory.wf (size : Nat) (rom : List Host.Cell) : Bool :=
  Memory.risingFrom 0 rom && rom.all (fun cell => decide (cell.1 < size))

/-- The reset vector, read from the file offsets directly and not through the map (rule R124). -/
def Memory.resetVector (rom : List Host.Cell) : Word :=
  BitVec.ofNat 16 (combineLE
    [Memory.byteAt rom Config.resetVectorOffset, Memory.byteAt rom (Config.resetVectorOffset + 1)])

end Sys2Proof.Machine
end

