-- ==== Sys2Proof/Machine/State.lean ====
section
/-! DEFINITION. The machine's state as plain data, the reasons a step can stop, and the state after reset. -/

namespace Sys2Proof.Machine

/-- A fault of the spec with its recorded values (rules R100 to R102). A step that raises one TAKES it: the next state has
`run = Faulted(f)` (rule R104). -/
inductive FaultCause where
  /-- The byte fetched at `pc` is not one of the eight opcodes (rule R100). -/
  | decodeFault (opcode : Byte) (pc : Nat)
  /-- The translation unit refuses the raw address `a` (rule R101). -/
  | mappingFault (a : Nat)
  /-- Address `a` translates to cartridge offset `off`, which is at or past ROM_SIZE (rule R102). -/
  | romBoundsFault (a : Nat) (off : Nat)
  deriving DecidableEq, Repr

/-- The run-state (rules R35, R79). -/
inductive RunState where
  | running
  | stopped
  | faulted (f : FaultCause)
  deriving DecidableEq, Repr

/-- What the core puts out: the event of a staged store (rule R90) and the report of a fault, its addresses as bank and
offset (rule R106; the text of a log line is left out, log 22). -/
inductive Output where
  | unimplementedWrite (opcode : Byte) (pc addr : Nat)
  | decodeReport (opcode : Byte) (pc : Nat)
  | mappingReport (bank offset : Nat)
  | romBoundsReport (bank offset off : Nat)
  deriving DecidableEq, Repr

/-- Why there is no step. Raised by `step` alone, for a core whose run has ended: `Stopped` and `Faulted` are terminal
(rule R79, U14; log 6). Both are safe: the spec gives such a core no step either. -/
inductive Fault where
  /-- `run = Stopped`: the requested end of a run, after which nothing steps. Raised by `step`; safe. -/
  | coreStopped
  /-- `run = Faulted(cause)`: the run ended in that fault, and nothing steps after it. Raised by `step`; safe. -/
  | coreFaulted (cause : FaultCause)
  deriving DecidableEq, Repr

/-- Why there is no meaning. -/
inductive Refusal where
  /-- An instruction whose meaning is not written. Raised by no arm of `exec`: every instruction has its meaning; safe. -/
  | notModelled (mnemonic : String)
  deriving DecidableEq, Repr

/-- Everything the spec gives the core (rule R15), its input `stop` (rule R36), the cartridge (rule R41, log 1), and the
model's own record of the outputs (log 7). -/
structure State where
  /-- Program counter: the address of the opcode byte (rules R19 to R21). -/
  pc : Nat
  /-- Accumulator (rule R16). -/
  a : Word
  /-- Direct-page register (rule R33). -/
  dp : Word
  /-- Status-flag byte (rules R22, R23). -/
  p : Byte
  /-- Emulation-mode flag (rule R32). -/
  e : Bool
  /-- Run-state (rule R35). -/
  run : RunState
  /-- The stop input as the controller drives it (rule R36). -/
  stop : Bool
  /-- ROM_SIZE (rule R8). -/
  romSize : Nat
  /-- ROM: bytes by file offset, canonical (rule R41). -/
  rom : List Host.Cell
  /-- Events and reports put out so far, oldest first; nothing reads them (rules R90, R106). -/
  outputs : List Output
  deriving DecidableEq, Repr

/-- The open reset parameters RESET_A, RESET_DP, RESET_P, RESET_E (rule R9). -/
structure ResetValues where
  a : Word
  dp : Word
  p : Byte
  e : Bool
  deriving DecidableEq, Repr

/-- The table of rule R38: PC seeded from the reset vector, the open parameters, Running, stop clear. -/
def State.seeded (v : ResetValues) (romSize : Nat) (rom : List Host.Cell) : State where
  pc := (Memory.resetVector rom).toNat
  a := v.a
  dp := v.dp
  p := v.p
  e := v.e
  run := .running
  stop := false
  romSize := romSize
  rom := rom
  outputs := []

/-- Power-on with a ROM file, for any value of the open parameters (rule R123). A file too short to hold the reset vector
gives no initial state (rule R125, U12; log 20). -/
def State.powerOn (v : ResetValues) (file : List Byte) : Option State :=
  if file.length < Config.minRomSize then none
  else some (State.seeded v file.length (Memory.ofFile 0 file))

/-- The machine right after reset, with the values the log names for the open parameters (log 4, log 5) and a blank
cartridge (log 2, log 3). -/
def State.reset : State :=
  State.seeded { a := Config.resetA, dp := Config.resetDp, p := Config.resetP, e := Config.resetE }
    Config.resetRomSize []

end Sys2Proof.Machine
end

