-- ==== Sys2Proof/Machine/Ops.lean ====
section
/-! DEFINITION. The operations every instruction is built from: register writes, addresses and their translation, the
memory gateway, putting out an event, taking a fault, stopping, and completing an instruction. -/

namespace Sys2Proof.Machine

/-! ### Readings of the state -/

/-- Effective accumulator width of the state, true for 8 bits (rule R17). -/
def State.acc8 (s : State) : Bool := accIs8 s.e s.p

/-- Whether the cartridge is held in its canonical form. -/
def State.romWf (s : State) : Bool := Memory.wf s.romSize s.rom

/-! ### Register writes -/

def State.setPc (s : State) (pc : Nat) : State := { s with pc := pc }
def State.setA (s : State) (a : Word) : State := { s with a := a }
def State.setDp (s : State) (dp : Word) : State := { s with dp := dp }
def State.setP (s : State) (p : Byte) : State := { s with p := p }
def State.setE (s : State) (e : Bool) : State := { s with e := e }
def State.setRun (s : State) (r : RunState) : State := { s with run := r }
def State.setStop (s : State) (b : Bool) : State := { s with stop := b }
def State.setRom (s : State) (size : Nat) (rom : List Host.Cell) : State := { s with romSize := size, rom := rom }
def State.emit (s : State) (o : Output) : State := { s with outputs := s.outputs ++ [o] }

/-- `A[7:0] <- b` with `A[15:8]` kept (rules R16, R89). -/
def replaceLow (a : Word) (b : Byte) : Word := a.extractLsb' 8 8 ++ b

/-! ### Addresses and their translation -/

/-- `bank(a)` (rule R20). -/
def bank (a : Nat) : Nat := a / 0x10000

/-- `offset(a)` (rule R20). -/
def offset (a : Nat) : Nat := a % 0x10000

/-- The regions a translation can name; the set is open and has one member now (rule R42). -/
inductive RegionKind where
  | cartridge
  deriving DecidableEq, Repr

/-- A mapping result (rule R42). -/
structure MapResult where
  region : RegionKind
  off : Nat
  deriving DecidableEq, Repr

/-- A translation unit: a pure function of the address that answers a mapping result or fails (rule R43). -/
abbrev Model := Nat → Option MapResult

/-- The translation this hardware uses (rules R7, R44; log 21). -/
def loMem : Model := fun a =>
  if bank a > 0x3F then none
  else if offset a < 0x8000 then none
  else some { region := .cartridge, off := bank a * 0x10000 + offset a - 0x8000 }

/-! ### The memory gateway -/

/-- `ReadByte(a)`: translate, then check the bound, then the byte (rules R48, R49; log 13). -/
def readByte (model : Model) (s : State) (a : Nat) : Except FaultCause Byte :=
  match model a with
  | none => .error (.mappingFault a)
  | some { region := .cartridge, off := off } =>
    if s.romSize ≤ off then .error (.romBoundsFault a off) else .ok (Memory.byteAt s.rom off)

/-- `n` consecutive bytes in ascending address order; the first that fails is the one reported (rule R50, log 17). -/
def readBytes (model : Model) (s : State) (a : Nat) : Nat → Except FaultCause (List Byte)
  | 0 => .ok []
  | n + 1 =>
    match readByte model s a with
    | .error f => .error f
    | .ok b =>
      match readBytes model s (a + 1) n with
      | .error f => .error f
      | .ok bs => .ok (b :: bs)

/-- `MemRead(a, n)`, in program order and without alignment (rules R50, R53; log 25). -/
def memRead (model : Model) (s : State) (a : Nat) (n : Nat) : Except FaultCause Nat :=
  (readBytes model s a n).map combineLE

/-- `MemReadAddr(a, n)`: the same combination taken as an Address (rule R51). -/
def memReadAddr (model : Model) (s : State) (a : Nat) (n : Nat) : Except FaultCause Nat :=
  memRead model s a n

/-! ### Faults, stopping, completing -/

/-- The spec's own labels of the faults (rule R103; log 26). -/
def FaultCause.code : FaultCause → Nat
  | .decodeFault _ _ => 1
  | .mappingFault _ => 2
  | .romBoundsFault _ _ => 3

/-- The report of a fault, addresses as bank and offset (rule R106). -/
def FaultCause.report : FaultCause → Output
  | .decodeFault opcode pc => .decodeReport opcode pc
  | .mappingFault a => .mappingReport (bank a) (offset a)
  | .romBoundsFault a off => .romBoundsReport (bank a) (offset a) off

/-- Taking a fault: the run-state becomes `Faulted(f)` and one report goes out. No register is written, nothing is saved
and nothing is vectored to (rules R104 to R106; log 15). There is no return from it (rule R109). -/
def takeFault (f : FaultCause) (s : State) : State := (s.setRun (.faulted f)).emit f.report

/-- The step that finds `stop = 1`: nothing but the run-state changes (rule R81). -/
def takeStop (s : State) : State := s.setRun .stopped

/-- Completing an instruction of `size` bytes: `PC <- PC + size`, flat (rule R83; log 12). -/
def complete (size : Nat) (s : State) : Host.Outcome State Fault Refusal := .next (s.setPc (s.pc + size))

/-- The controller's one move: raise `stop` (rules R36, R137; log 8). -/
def raiseStop (s : State) : State := s.setStop true

/-! ### Placing an instruction from outside (log 19) -/

/-- Bytes placed in the cartridge at a file offset, ROM_SIZE grown to hold them. -/
def placeBytes (off : Nat) (bs : List Byte) (s : State) : State :=
  s.setRom (max s.romSize (off + bs.length)) (Memory.putAll s.rom off bs)

/-- A cartridge whose reset vector is `0x8000`, and the core seeded from it (rule R124, source example S8). -/
def seedAtWindow (s : State) : State :=
  (placeBytes Config.resetVectorOffset [0x00#8, 0x80#8] s).setPc 0x8000

/-- A core that will fetch: running, no stop request. -/
def letRun (s : State) : State := (s.setRun .running).setStop false

/-- A PC at which the longest instruction lies in one window of the map, or the start of bank 0's window. -/
def seatPc (s : State) : State :=
  match loMem s.pc, loMem (s.pc + 2) with
  | some _, some _ => s
  | _, _ => seedAtWindow s

/-- The flags that give the accumulator the width asked for; nothing changes where it has that width already. -/
def seatWidth (acc8 : Bool) (s : State) : State :=
  if s.acc8 = acc8 then s
  else if acc8 then s.setP (setFlag s.p accWidthBit true)
  else (s.setE false).setP (setFlag s.p accWidthBit false)

end Sys2Proof.Machine
end

