-- ==== Sys2Proof/Machine/FlagOps.lean ====
section
/-! DEFINITION. The flag instructions CLC, SEI, REP (spec/41_flag_ops.md). -/

namespace Sys2Proof.Machine

/-- CLC (rule R91). -/
def execClc (s : State) : Host.Outcome State Fault Refusal :=
  complete 1 (s.setP (clearCarry s.p))

/-- SEI (rule R92). -/
def execSei (s : State) : Host.Outcome State Fault Refusal :=
  complete 1 (s.setP (setIrqDisable s.p))

/-- REP #imm, the same in both modes (rule R93). -/
def execRep (mask : Byte) (s : State) : Host.Outcome State Fault Refusal :=
  complete 2 (s.setP (clearMask s.p mask))

end Sys2Proof.Machine
end

