-- ==== Sys2Proof/Machine/ModeExchange.lean ====
section
/-! DEFINITION. The mode exchange XCE (spec/44_mode_exchange.md). -/

namespace Sys2Proof.Machine

/-- XCE: E takes the old Carry, Carry the old E, and bits 4 and 5 follow the direction of the switch (rule R98). -/
def execXce (s : State) : Host.Outcome State Fault Refusal :=
  complete 1 ((s.setE (carry s.p)).setP (exchangeFlags s.e s.p))

end Sys2Proof.Machine
end

