-- ==== Sys2Proof/Machine/Operands.lean ====
section
/-! DEFINITION. The operand forms and the fetch: from the bytes at PC to an instruction, or a fault. -/

namespace Sys2Proof.Machine

/-- `imm8 = MemRead(PC + 1, 1)`: formats IMM8 and IMMA8 (rule R67). -/
def readOperandByte (model : Model) (s : State) : Except FaultCause Byte :=
  (memRead model s (s.pc + 1) 1).map (BitVec.ofNat 8)

/-- `MemRead(PC + 1, 2)` and `MemReadAddr(PC + 1, 2)`: formats IMMA16 and ABS, one combination (rules R51, R67). -/
def readOperandWord (model : Model) (s : State) : Except FaultCause Word :=
  (memRead model s (s.pc + 1) 2).map (BitVec.ofNat 16)

/-- The Address an absolute operand names: its 16 bits as an offset in bank 0 (rule R51). -/
def absoluteAddress (addr : Word) : Nat := addr.toNat

/-- Reads what stands behind the opcode byte and builds the instruction (rules R66, R67; log 18). -/
def readOperands (model : Model) (s : State) : OperandForm → Except FaultCause Instr
  | .none i => .ok i
  | .byte build => (readOperandByte model s).map build
  | .word build => (readOperandWord model s).map build

/-- Lines 1 and 2 of the step, and the operand reads of line 3: opcode byte, dispatch, operand bytes, in the order of
rule R107 (rule R80; log 17, log 24). The width is the one before the step (rule R86). -/
def fetch (model : Model) (s : State) : Except FaultCause Instr :=
  match readByte model s s.pc with
  | .error f => .error f
  | .ok opcode =>
    match decodeOpcode s.acc8 opcode with
    | none => .error (.decodeFault opcode s.pc)
    | some form => readOperands model s form

end Sys2Proof.Machine
end

