-- ==== Sys2Proof/Machine/Stores.lean ====
section
/-! DEFINITION. The staged stores STA abs and STZ abs (spec/43_stores.md): the right size, one event, no write. -/

namespace Sys2Proof.Machine

/-- STA abs: `emit UnimplementedWrite(0x8D, PC, addr)` and nothing else; the target is never translated (rule R96; log 11). -/
def execSta (addr : Word) (s : State) : Host.Outcome State Fault Refusal :=
  complete 3 (s.emit (.unimplementedWrite 0x8D#8 s.pc (absoluteAddress addr)))

/-- STZ abs: `emit UnimplementedWrite(0x9C, PC, addr)` and nothing else; the target is never translated (rule R97; log 11). -/
def execStz (addr : Word) (s : State) : Host.Outcome State Fault Refusal :=
  complete 3 (s.emit (.unimplementedWrite 0x9C#8 s.pc (absoluteAddress addr)))

end Sys2Proof.Machine
end

