-- ==== Sys2Proof/Machine/TransferLoad.lean ====
section
/-! DEFINITION. The transfer TCD and the load LDA #const (spec/42_transfer_load.md). -/

namespace Sys2Proof.Machine

/-- TCD: all 16 bits and 16-bit flags in every width (rule R94). -/
def execTcd (s : State) : Host.Outcome State Fault Refusal :=
  complete 1 ((s.setDp s.a).setP (setTransferFlags 16 s.a s.p))

/-- LDA #const, the branch `acc8 = 1`: low byte replaced, flags of the loaded byte (rule R95). The form itself says the
width; `fetch` yields this form exactly when acc8 = 1 (log 9). -/
def execLdaImm8 (imm : Byte) (s : State) : Host.Outcome State Fault Refusal :=
  complete 2 ((s.setA (replaceLow s.a imm)).setP (setTransferFlags 8 imm s.p))

/-- LDA #const, the branch `acc8 = 0`: all of A replaced, flags of the loaded word (rule R95). `fetch` yields this form
exactly when acc8 = 0 (log 9). -/
def execLdaImm16 (imm : Word) (s : State) : Host.Outcome State Fault Refusal :=
  complete 3 ((s.setA imm).setP (setTransferFlags 16 imm s.p))

end Sys2Proof.Machine
end

