-- ==== Sys2Proof/Machine/Dispatch.lean ====
section
/-! DEFINITION. One arm per constructor of Instr. -/

namespace Sys2Proof.Machine

/-- Line 3 of the step with the operands read, and line 4 (rules R77, R80). -/
def exec (i : Instr) (s : State) : Host.Outcome State Fault Refusal :=
  match i with
  | .clc => Sys2Proof.Machine.execClc s
  | .tcd => Sys2Proof.Machine.execTcd s
  | .sei => Sys2Proof.Machine.execSei s
  | .sta addr => Sys2Proof.Machine.execSta addr s
  | .stz addr => Sys2Proof.Machine.execStz addr s
  | .ldaImm8 imm => Sys2Proof.Machine.execLdaImm8 imm s
  | .ldaImm16 imm => Sys2Proof.Machine.execLdaImm16 imm s
  | .rep mask => Sys2Proof.Machine.execRep mask s
  | .xce => Sys2Proof.Machine.execXce s

end Sys2Proof.Machine
end

