-- ==== Sys2Proof/Machine/Step.lean ====
section
/-! DEFINITION. One iteration of the fetch-decode-execute loop (spec/40_step_loop.md). -/

namespace Sys2Proof.Machine

/-- The step of rule R80 over any translation unit (rule R43). A core that has ended has no step (rule R79, log 6). -/
def stepWith (model : Model) (s : State) : Host.Outcome State Fault Refusal :=
  match s.run with
  | .stopped => .fault .coreStopped
  | .faulted f => .fault (.coreFaulted f)
  | .running =>
    if s.stop then .next (takeStop s)
    else
      match fetch model s with
      | .error f => .next (takeFault f s)
      | .ok i => exec i s

/-- The step of this hardware: `MODEL = LoMem` (rule R7, log 21). -/
def step (s : State) : Host.Outcome State Fault Refusal := stepWith loMem s

/-- `s` with the instruction of a table word placed where the next step fetches (log 19): the core lets run, PC is kept
where the whole instruction fits there, and for opcode `0xA9` the accumulator has the width of the row's form. -/
def State.withFetchWord (s : State) (nbits w : Nat) : State :=
  let seated := seatPc (letRun s)
  let wide := if (tableBytes nbits w).head? = some 0xA9#8 then seatWidth (tableAcc8 nbits) seated else seated
  placeBytes (wide.pc - 0x8000) (tableBytes nbits w) wide

end Sys2Proof.Machine
end

