-- ==== Sys2Proof/Safety.lean ====
section
/-! DEFINITION. What counts as a good state and a good end of a run, in the terms the claims use. -/

namespace Sys2Proof.Machine

/-- The requested end of a run (rules R35, R114). -/
def State.endedAsRequested (s : State) : Prop := s.run = .stopped

/-- The early end of a run, an error distinct from a requested stop (rules R104, R114). -/
def State.endedEarly (s : State) : Prop := ∃ f, s.run = .faulted f

/-- The run-state tells the truth about the registers and the cartridge it stands beside. A stopped core was asked to
stop; a decode fault's byte is the one at PC and is no opcode; a memory fault's address lies in the instruction at PC
and cannot be read (rules R35, R81, R100 to R102, R105). -/
def State.endRecordTrue (s : State) : Prop :=
  match s.run with
  | .running => True
  | .stopped => s.stop = true
  | .faulted (.decodeFault opcode pc) =>
    pc = s.pc ∧ readByte loMem s s.pc = .ok opcode ∧ opcodeSize s.acc8 opcode = none
  | .faulted (.mappingFault a) => s.pc ≤ a ∧ a ≤ s.pc + 2 ∧ loMem a = none
  | .faulted (.romBoundsFault a off) =>
    s.pc ≤ a ∧ a ≤ s.pc + 2 ∧ loMem a = some { region := .cartridge, off := off } ∧ s.romSize ≤ off

/-- A core that faulted put out the report of that fault last (rule R106). -/
def State.endReported (s : State) : Prop :=
  match s.run with
  | .running => True
  | .stopped => True
  | .faulted f => s.outputs.getLast? = some f.report

/-- The invariant of a run. The reach of PC is the one a run from reset has (rules R21, R88). -/
structure State.Inv (s : State) : Prop where
  romCanonical : s.romWf = true
  hasResetVector : Config.minRomSize ≤ s.romSize
  pcReach : s.pc ≤ 0x10000
  endTrue : s.endRecordTrue
  reported : s.endReported

/-! ### The terms of frames -/

/-- Run-state, stop input and every byte of memory are as before. -/
def State.keepsSurroundings (s t : State) : Prop :=
  t.run = s.run ∧ t.stop = s.stop ∧ t.romSize = s.romSize ∧ ∀ a, readByte loMem t a = readByte loMem s a

/-- Bit `k` of P as `SetTransferFlags(v, w)` leaves it: Zero from the value, Negative from its top bit at width `w`
(rule R87). -/
def transferFlag (w : Nat) (v : BitVec w) (p : Byte) (k : Nat) : Bool :=
  if k = 1 then decide (v = 0#w) else if k = 7 then v.getLsbD (w - 1) else flag p k

/-- The writers of A (rule R16). -/
def mayWriteA : Instr → Bool
  | .ldaImm8 _ => true
  | .ldaImm16 _ => true
  | .clc => false
  | .tcd => false
  | .sei => false
  | .sta _ => false
  | .stz _ => false
  | .rep _ => false
  | .xce => false

/-- The writers of `P[k]` (rules R24 to R31); REP's mask names the bits it clears (rule R93). -/
def mayWriteFlag (k : Nat) : Instr → Bool
  | .clc => k == 0
  | .sei => k == 2
  | .tcd => k == 1 || k == 7
  | .ldaImm8 _ => k == 1 || k == 7
  | .ldaImm16 _ => k == 1 || k == 7
  | .rep mask => flag mask k
  | .xce => k == 0 || k == 4 || k == 5
  | .sta _ => false
  | .stz _ => false

/-- What an instruction puts out when it completes: one event for a staged store, else nothing (rule R90). -/
def emitted (pc : Nat) : Instr → List Output
  | .sta addr => [.unimplementedWrite 0x8D#8 pc addr.toNat]
  | .stz addr => [.unimplementedWrite 0x9C#8 pc addr.toNat]
  | .clc => []
  | .tcd => []
  | .sei => []
  | .ldaImm8 _ => []
  | .ldaImm16 _ => []
  | .rep _ => []
  | .xce => []

/-- Agreement on everything the eight instructions read: PC, E, Carry, bit 5, the run-state, the stop input and the
cartridge, with A so that what is written from it agrees too. DP and the other six flags may differ (rules R26 to R28, R30,
R33, R111). -/
def State.agreesOnRead (s t : State) : Prop :=
  s.pc = t.pc ∧ s.a = t.a ∧ s.e = t.e ∧ flag s.p 0 = flag t.p 0 ∧ flag s.p 5 = flag t.p 5 ∧ s.run = t.run ∧
    s.stop = t.stop ∧ s.romSize = t.romSize ∧ s.rom = t.rom ∧ s.outputs = t.outputs

end Sys2Proof.Machine
end

