-- ==== Sys2Proof/WellFormed.lean ====
section
/-! DEFINITION. Which instructions the bytes of a program can stand for under a given accumulator width. -/

namespace Sys2Proof

/-- The `condition` column of the opcode table: LDA's 8-bit form exists only when acc8 = 1 and its 16-bit form only when
acc8 = 0; every other instruction exists in both widths (rules R68, R72). No other check is needed: an operand's
Lean type has exactly the values its bytes have (rule R74). -/
def Instr.wellFormed (acc8 : Bool) : Instr → Bool
  | .clc => true
  | .tcd => true
  | .sei => true
  | .sta _ => true
  | .stz _ => true
  | .ldaImm8 _ => acc8
  | .ldaImm16 _ => !acc8
  | .rep _ => true
  | .xce => true

end Sys2Proof
end

