-- ==== Sys2Proof/Certificates/Slice0/Obligations.lean ====
section
/-! DEFINITION. The statements for the provers. Each docstring names the rule of spec/ the statement follows and, where a
clause rests on a decision of the spec or a choice of the model, the decision and the log entry. -/

open Sys2Proof Sys2Proof.Machine

/-! ### Encoding -/

/-- Rules R65 to R68: the bytes of a well-formed instruction decode to it, whatever follows them. -/
def Obligations.DecodeOfEncode : Prop :=
  ∀ (i : Instr) (acc8 : Bool) (rest : List Byte), i.wellFormed acc8 = true →
    decode acc8 (encode i ++ rest) = .ok (i, rest)

/-- Rules R66, R70: only the bytes of an instruction decode to it, and the decoder's form fits the width. -/
def Obligations.EncodeOfDecode : Prop :=
  ∀ (acc8 : Bool) (bs rest : List Byte) (i : Instr), decode acc8 bs = .ok (i, rest) →
    bs = encode i ++ rest ∧ i.wellFormed acc8 = true

/-- Rule R70: one word of every row, written out from the opcode table. -/
def Obligations.SpecWordsDecode : Prop :=
  decode true [0b00011000#8] = .ok (.clc, []) ∧ decode true [0b01011011#8] = .ok (.tcd, []) ∧
  decode false [0b01111000#8] = .ok (.sei, []) ∧
  decode true [0b10001101#8, 0x00#8, 0x21#8] = .ok (.sta 0x2100#16, []) ∧
  decode false [0b10011100#8, 0x00#8, 0x42#8] = .ok (.stz 0x4200#16, []) ∧
  decode true [0b10101001#8, 0x56#8] = .ok (.ldaImm8 0x56#8, []) ∧
  decode false [0b10101001#8, 0x34#8, 0x12#8] = .ok (.ldaImm16 0x1234#16, []) ∧
  decode false [0b11000010#8, 0x30#8] = .ok (.rep 0x30#8, []) ∧ decode false [0b11111011#8] = .ok (.xce, [])

/-- Rule R68, whole: the size as a function of the opcode byte and acc8; that every state fetches by the size at its own
`E | P[5]`, and takes a byte without size as a decode fault; and the two readings of `A9 00 18`, as bytes and in a state. -/
def Obligations.SizeFollowsOpcodeAndWidth : Prop :=
  (∀ (acc8 : Bool) (opcode : Byte), opcodeSize acc8 opcode =
    if opcode ∈ [0x18#8, 0x5B#8, 0x78#8, 0xFB#8] then some 1
    else if opcode = 0xC2#8 then some 2
    else if opcode ∈ [0x8D#8, 0x9C#8] then some 3
    else if opcode = 0xA9#8 then (if acc8 then some 2 else some 3)
    else none) ∧
  (∀ (s : State) (opcode : Byte), readByte loMem s s.pc = .ok opcode →
    (∀ i, fetch loMem s = .ok i → opcodeSize (s.e || flag s.p 5) opcode = some (encode i).length) ∧
    (opcodeSize (s.e || flag s.p 5) opcode = none → fetch loMem s = .error (.decodeFault opcode s.pc) ∧
      (s.run = .running → s.stop = false → step s = .next (takeFault (.decodeFault opcode s.pc) s)))) ∧
  (∀ s : State, readBytes loMem s s.pc 3 = .ok [0xA9#8, 0x00#8, 0x18#8] →
    (s.e = false ∧ flag s.p 5 = false → fetch loMem s = .ok (.ldaImm16 0x1800#16)) ∧
    (s.e = true ∨ flag s.p 5 = true → fetch loMem s = .ok (.ldaImm8 0x00#8) ∧
      ∃ t, exec (.ldaImm8 0x00#8) s = .next t ∧ fetch loMem t = .ok .clc)) ∧
  (∀ rest : List Byte, decode false (0xA9#8 :: 0x00#8 :: 0x18#8 :: rest) = .ok (.ldaImm16 0x1800#16, rest)) ∧
  ∀ rest : List Byte, decode true (0xA9#8 :: 0x00#8 :: 0x18#8 :: rest) = .ok (.ldaImm8 0x00#8, 0x18#8 :: rest) ∧
    decode true (0x18#8 :: rest) = .ok (.clc, rest)

/-! ### Translation and reads -/

/-- Rules R44, R46: banks `0x00` to `0x3F` and offsets from `0x8000` on map by the spec's formula; every other bank and
every lower offset fails, and a read there is a mapping fault that carries the address. -/
def Obligations.LoMemMapsWindows : Prop :=
  ∀ b o : Nat, o ≤ 0xFFFF →
    (b ≤ 0x3F → 0x8000 ≤ o →
      loMem (b * 0x10000 + o) = some { region := .cartridge, off := b * 0x10000 + o - 0x8000 }) ∧
    (0x3F < b ∨ o < 0x8000 → loMem (b * 0x10000 + o) = none ∧
      ∀ s, readByte loMem s (b * 0x10000 + o) = .error (.mappingFault (b * 0x10000 + o)))

/-- Rule R45: the map is strictly increasing, and its image is the lower half of each `0x10000` bytes of the file. -/
def Obligations.LoMemImage : Prop :=
  (∀ (a a' : Nat) (m m' : MapResult), loMem a = some m → loMem a' = some m' → (a < a' ↔ m.off < m'.off)) ∧
  ∀ off : Nat, (∃ a, loMem a = some { region := .cartridge, off := off }) ↔
    off % 0x10000 < 0x8000 ∧ off ≤ 0x3F7FFF

/-- Rules R48, R49: what a byte read answers in a window of the map and outside. The bound `>=` is the spec's decision D8
(log 13); a byte the state does not list reads as blank (log 2). -/
def Obligations.ReadByteAnswers : Prop :=
  ∀ (s : State) (b o : Nat), o ≤ 0xFFFF →
    (b ≤ 0x3F → 0x8000 ≤ o →
      readByte loMem s (b * 0x10000 + o) =
        if b * 0x10000 + o - 0x8000 < s.romSize then .ok (Memory.byteAt s.rom (b * 0x10000 + o - 0x8000))
        else .error (.romBoundsFault (b * 0x10000 + o) (b * 0x10000 + o - 0x8000))) ∧
    (0x3F < b ∨ o < 0x8000 → readByte loMem s (b * 0x10000 + o) = .error (.mappingFault (b * 0x10000 + o)))

/-- Rules R50, R52: the value of a multi-byte read has the byte at address `a + i` in position `i`; it exists exactly when
every byte can be read, and else the fault is the lowest failing byte's (the spec's decision D15, log 17). -/
def Obligations.MultiByteReadIsLittleEndian : Prop :=
  ∀ (s : State) (a n : Nat),
    (∀ v, memRead loMem s a n = .ok v →
      v < 0x100 ^ n ∧ ∀ i < n, readByte loMem s (a + i) = .ok (BitVec.ofNat 8 (v / 0x100 ^ i))) ∧
    (∀ f, memRead loMem s a n = .error f →
      ∃ i < n, readByte loMem s (a + i) = .error f ∧ ∀ j < i, ∃ b, readByte loMem s (a + j) = .ok b) ∧
    ((∀ i < n, ∃ b, readByte loMem s (a + i) = .ok b) → ∃ v, memRead loMem s a n = .ok v)

/-- Rule R51: an address read gives the same number, and with two bytes it names a place in bank 0. -/
def Obligations.AddressReadIsInBankZero : Prop :=
  ∀ (s : State) (a : Nat),
    (∀ n, memReadAddr loMem s a n = memRead loMem s a n) ∧
    ∀ addr, memReadAddr loMem s a 2 = .ok addr → bank addr = 0 ∧ offset addr = addr

/-! ### Flags -/

/-- Rule R87, whole: `SetTransferFlags` at width 8 and at width 16, that it never leaves Zero and Negative both set, and
its callers with their widths. -/
def Obligations.TransferFlagsByWidth : Prop :=
  (∀ w : Nat, w = 8 ∨ w = 16 → ∀ (v : BitVec w) (p : Byte),
    (∀ k < 8, flag (setTransferFlags w v p) k =
      if k = 1 then decide (v = 0#w) else if k = 7 then v.getLsbD (w - 1) else flag p k) ∧
    ¬ (flag (setTransferFlags w v p) 1 = true ∧ flag (setTransferFlags w v p) 7 = true)) ∧
  ∀ s t : State,
    (exec .tcd s = .next t → t.p = setTransferFlags 16 s.a s.p) ∧
    (∀ b, fetch loMem s = .ok (.ldaImm8 b) → exec (.ldaImm8 b) s = .next t →
      s.acc8 = true ∧ t.p = setTransferFlags 8 b s.p) ∧
    ∀ v, fetch loMem s = .ok (.ldaImm16 v) → exec (.ldaImm16 v) s = .next t →
      s.acc8 = false ∧ t.p = setTransferFlags 16 v s.p

/-- Rules R17, R72, R86: the form of LDA that is fetched is the one of `E | P[5]` before the step (log 9). -/
def Obligations.WidthDecidesLdaForm : Prop :=
  ∀ s : State,
    (∀ b, fetch loMem s = .ok (.ldaImm8 b) → s.e = true ∨ flag s.p 5 = true) ∧
    ∀ v, fetch loMem s = .ok (.ldaImm16 v) → s.e = false ∧ flag s.p 5 = false

/-! ### Results of the instructions -/

/-- Rule R91: CLC. -/
def Obligations.ClcClearsCarryOnly : Prop :=
  encode .clc = [0x18#8] ∧
  ∀ s : State, ∃ t, exec .clc s = .next t ∧ (∀ k < 8, flag t.p k = if k = 0 then false else flag s.p k) ∧
    t.pc = s.pc + 1 ∧ t.a = s.a ∧ t.dp = s.dp ∧ t.e = s.e ∧ t.outputs = s.outputs ∧ s.keepsSurroundings t

/-- Rule R92: SEI, and that the bit has no further effect: a step from states that differ in bit 2 of P at most ends in
states that differ in bit 2 of P at most. -/
def Obligations.SeiSetsIrqDisableOnly : Prop :=
  encode .sei = [0x78#8] ∧
  (∀ s : State, ∃ t, exec .sei s = .next t ∧ (∀ k < 8, flag t.p k = if k = 2 then true else flag s.p k) ∧
    t.pc = s.pc + 1 ∧ t.a = s.a ∧ t.dp = s.dp ∧ t.e = s.e ∧ t.outputs = s.outputs ∧ s.keepsSurroundings t) ∧
  ∀ (s t : State) (b : Bool), step s = .next t →
    ∃ t', step (s.setP (setFlag s.p 2 b)) = .next t' ∧ t' = t.setP (setFlag t.p 2 (flag t'.p 2))

/-- Rule R93, the effect: REP clears the bits its mask names and recomputes nothing. -/
def Obligations.RepClearsMaskedFlags : Prop :=
  ∀ mask : Byte, encode (.rep mask) = [0xC2#8, mask] ∧
  ∀ s : State, ∃ t, exec (.rep mask) s = .next t ∧
    (∀ k < 8, flag t.p k = if flag mask k = true then false else flag s.p k) ∧
    t.pc = s.pc + 2 ∧ t.a = s.a ∧ t.dp = s.dp ∧ t.e = s.e ∧ t.outputs = s.outputs ∧ s.keepsSurroundings t

/-- Rule R93, the step: the mask is the byte at `PC + 1`; where it cannot be read the step takes its fault and P and PC
stay (the last clause is the spec's decision D10, log 15). -/
def Obligations.RepReadsItsMask : Prop :=
  ∀ s : State, s.run = .running → s.stop = false → readByte loMem s s.pc = .ok 0xC2#8 →
    (∀ mask, readByte loMem s (s.pc + 1) = .ok mask → step s = exec (.rep mask) s) ∧
    ∀ f, readByte loMem s (s.pc + 1) = .error f →
      ∃ t, step s = .next t ∧ t.run = .faulted f ∧ t.p = s.p ∧ t.pc = s.pc

/-- Rule R94: TCD moves all 16 bits and tests all 16, whatever the accumulator width; and DP has no effect on any
instruction: a step from states that differ in DP at most ends in states that differ in DP at most. -/
def Obligations.TcdTransfersAllSixteenBits : Prop :=
  encode .tcd = [0x5B#8] ∧
  (∀ s : State, ∃ t, exec .tcd s = .next t ∧ t.dp = s.a ∧ (∀ k < 8, flag t.p k = transferFlag 16 s.a s.p k) ∧
    t.pc = s.pc + 1 ∧ t.a = s.a ∧ t.e = s.e ∧ t.outputs = s.outputs ∧ s.keepsSurroundings t) ∧
  ∀ (s t : State) (d : Word), step s = .next t → ∃ t', step (s.setDp d) = .next t' ∧ t' = t.setDp t'.dp

/-- Rule R95, the 8-bit form, in the states that have it: the low byte is replaced, the high byte kept, the flags come
from the loaded byte. -/
def Obligations.LdaByteReplacesLowByte : Prop :=
  ∀ (imm : Byte) (s : State), s.e = true ∨ flag s.p 5 = true →
    ∃ t, exec (.ldaImm8 imm) s = .next t ∧ t.a.extractLsb' 0 8 = imm ∧ t.a.extractLsb' 8 8 = s.a.extractLsb' 8 8 ∧
      (∀ k < 8, flag t.p k = transferFlag 8 imm s.p k) ∧
      t.pc = s.pc + 2 ∧ t.dp = s.dp ∧ t.e = s.e ∧ t.outputs = s.outputs ∧ s.keepsSurroundings t

/-- Rule R95, the 16-bit form, in the states that have it: all of A is replaced. -/
def Obligations.LdaWordReplacesAccumulator : Prop :=
  ∀ (imm : Word) (s : State), s.e = false ∧ flag s.p 5 = false →
    ∃ t, exec (.ldaImm16 imm) s = .next t ∧ t.a = imm ∧ (∀ k < 8, flag t.p k = transferFlag 16 imm s.p k) ∧
      t.pc = s.pc + 3 ∧ t.dp = s.dp ∧ t.e = s.e ∧ t.outputs = s.outputs ∧ s.keepsSurroundings t

/-- Rule R95, the step: the width is `E | P[5]` before the step, the operand stands at `PC + 1`, little-endian; the lowest
byte that cannot be read gives the fault, and then A, P and PC stay (the spec's decisions D10 and D15, log 15, log 17). -/
def Obligations.LdaReadsItsOperandAtWidth : Prop :=
  ∀ s : State, s.run = .running → s.stop = false → readByte loMem s s.pc = .ok 0xA9#8 →
    (s.e = true ∨ flag s.p 5 = true →
      (∀ v, readByte loMem s (s.pc + 1) = .ok v → step s = exec (.ldaImm8 v) s) ∧
      ∀ f, readByte loMem s (s.pc + 1) = .error f →
        ∃ t, step s = .next t ∧ t.run = .faulted f ∧ t.a = s.a ∧ t.p = s.p ∧ t.pc = s.pc) ∧
    (s.e = false ∧ flag s.p 5 = false →
      (∀ lo hi, readByte loMem s (s.pc + 1) = .ok lo → readByte loMem s (s.pc + 2) = .ok hi →
        step s = exec (.ldaImm16 (hi ++ lo)) s) ∧
      (∀ f, readByte loMem s (s.pc + 1) = .error f →
        ∃ t, step s = .next t ∧ t.run = .faulted f ∧ t.a = s.a ∧ t.p = s.p ∧ t.pc = s.pc) ∧
      ∀ lo f, readByte loMem s (s.pc + 1) = .ok lo → readByte loMem s (s.pc + 2) = .error f →
        ∃ t, step s = .next t ∧ t.run = .faulted f ∧ t.a = s.a ∧ t.p = s.p ∧ t.pc = s.pc)

/-- Rules R96, R97 with the spec's decisions D5 and D6 (log 11): STA and STZ put out one event, move PC by 3 and change
nothing else; every byte of memory, those at the target among them, reads as before, and no target faults. -/
def Obligations.StoresAreStaged : Prop :=
  (∀ (addr : Word) (s : State), ∃ t, exec (.sta addr) s = .next t ∧ t.pc = s.pc + 3 ∧
    t.outputs = s.outputs ++ [.unimplementedWrite 0x8D#8 s.pc addr.toNat] ∧
    t.a = s.a ∧ t.dp = s.dp ∧ t.p = s.p ∧ t.e = s.e ∧ s.keepsSurroundings t) ∧
  ∀ (addr : Word) (s : State), ∃ t, exec (.stz addr) s = .next t ∧ t.pc = s.pc + 3 ∧
    t.outputs = s.outputs ++ [.unimplementedWrite 0x9C#8 s.pc addr.toNat] ∧
    t.a = s.a ∧ t.dp = s.dp ∧ t.p = s.p ∧ t.e = s.e ∧ s.keepsSurroundings t

/-- Rules R96, R97, the step: both operand bytes are read, low byte first, and the first that cannot be read gives the
fault, with no event (the spec's decisions D6, D10 and D15, log 11, log 15, log 17). -/
def Obligations.StoresReadTheirOperands : Prop :=
  ∀ (s : State) (opcode : Byte) (store : Word → Instr), s.run = .running → s.stop = false →
    (opcode = 0x8D#8 ∧ store = .sta) ∨ (opcode = 0x9C#8 ∧ store = .stz) → readByte loMem s s.pc = .ok opcode →
    (∀ lo hi, readByte loMem s (s.pc + 1) = .ok lo → readByte loMem s (s.pc + 2) = .ok hi →
      step s = exec (store (hi ++ lo)) s) ∧
    ∀ k f, k = 1 ∨ k = 2 → (∀ j < k, ∃ b, readByte loMem s (s.pc + j) = .ok b) →
      readByte loMem s (s.pc + k) = .error f → step s = .next (takeFault f s) ∧ (takeFault f s).outputs = s.outputs ++ [f.report]

/-- Rule R98: XCE on all four combinations of old E and old Carry. The two rows without a switch are the spec's decision
D7 (log 10). -/
def Obligations.XceExchangesCarryAndMode : Prop :=
  encode .xce = [0xFB#8] ∧
  ∀ s : State, ∃ t, exec .xce s = .next t ∧ t.e = flag s.p 0 ∧ flag t.p 0 = s.e ∧
    (s.e = true → flag s.p 0 = false → flag t.p 4 = true ∧ flag t.p 5 = true) ∧
    (s.e = false → flag s.p 0 = true → flag t.p 4 = false ∧ flag t.p 5 = flag s.p 5) ∧
    (s.e = flag s.p 0 → flag t.p 4 = flag s.p 4 ∧ flag t.p 5 = flag s.p 5) ∧
    (∀ k, k = 1 ∨ k = 2 ∨ k = 3 ∨ k = 6 ∨ k = 7 → flag t.p k = flag s.p k) ∧
    t.pc = s.pc + 1 ∧ t.a = s.a ∧ t.dp = s.dp ∧ t.outputs = s.outputs ∧ s.keepsSurroundings t

/-- Rule R98, corner cases: two XCEs in a row restore E and Carry. Bits 4 and 5 end both 1 from native mode with Carry
set, end 0 and 1 from emulation mode with Carry clear, and stay as they were where there was no switch (that last clause
is the spec's decision D7, log 10). -/
def Obligations.XceTwice : Prop :=
  ∀ s t u : State, exec .xce s = .next t → exec .xce t = .next u →
    u.e = s.e ∧ flag u.p 0 = flag s.p 0 ∧
    (s.e = false → flag s.p 0 = true → flag u.p 4 = true ∧ flag u.p 5 = true) ∧
    (s.e = true → flag s.p 0 = false → flag u.p 4 = false ∧ flag u.p 5 = true) ∧
    (s.e = flag s.p 0 → u.p = s.p)

/-! ### Frames and whole-machine rules -/

/-- Rules R16, R24 to R33, R90: what every instruction leaves unchanged. -/
def Obligations.FrameOfEveryInstruction : Prop :=
  ∀ (i : Instr) (s t : State), exec i s = .next t →
    (mayWriteA i = false → t.a = s.a) ∧ (i ≠ .tcd → t.dp = s.dp) ∧ (i ≠ .xce → t.e = s.e) ∧
    (∀ k < 8, mayWriteFlag k i = false → flag t.p k = flag s.p k) ∧
    t.outputs = s.outputs ++ emitted s.pc i ∧ s.keepsSurroundings t

/-- Rule R83: PC moves only by the length of a completed instruction, and a step that ends the run leaves it. -/
def Obligations.PcMovesBySizeOnly : Prop :=
  ∀ s t : State, step s = .next t →
    (t.run = .running → ∃ i, fetch loMem s = .ok i ∧ t.pc = s.pc + (encode i).length) ∧
    (t.run ≠ .running → t.pc = s.pc)

/-- Rules R55, R62: no run of any length changes what any address reads. -/
def Obligations.NoRunChangesMemory : Prop :=
  ∀ (n : Nat) (s t : State), Host.Core.run Sys2Proof.core n s = .next t →
    t.romSize = s.romSize ∧ t.rom = s.rom ∧ ∀ a, readByte loMem t a = readByte loMem s a

/-- Rules R27, R30, R129: no run of any length brings Decimal or Overflow to 1, and a step brings Carry to 1 only by XCE
from emulation mode. -/
def Obligations.FlagsThatCannotBeSet : Prop :=
  (∀ (n : Nat) (s t : State), Host.Core.run Sys2Proof.core n s = .next t →
    (flag s.p 3 = false → flag t.p 3 = false) ∧ (flag s.p 6 = false → flag t.p 6 = false)) ∧
  ∀ s t : State, step s = .next t → flag s.p 0 = false → flag t.p 0 = true →
    s.e = true ∧ t.e = false ∧ readByte loMem s s.pc = .ok 0xFB#8

/-- Rules R33, R111: DP and the flags other than Carry and bit 5 influence nothing the core does, over runs of any length. -/
def Obligations.UnreadStateHasNoInfluence : Prop :=
  ∀ (n : Nat) (s s' : State), s.agreesOnRead s' →
    (∀ t, Host.Core.run Sys2Proof.core n s = .next t →
      ∃ t', Host.Core.run Sys2Proof.core n s' = .next t' ∧ t.agreesOnRead t') ∧
    ∀ f, Host.Core.run Sys2Proof.core n s = .fault f → Host.Core.run Sys2Proof.core n s' = .fault f

/-- Rules R40, R43: a step consults the translation unit at no address outside `[PC, PC + 2]`, so a substitute that answers
alike there gives the same step. -/
def Obligations.StepReadsOnlyItsInstruction : Prop :=
  ∀ (m m' : Model) (s : State), (∀ a, s.pc ≤ a → a ≤ s.pc + 2 → m a = m' a) → stepWith m s = stepWith m' s

/-! ### The step, faults and the stop input -/

/-- Rule R80: a running core with no stop request runs the instruction its bytes decode to, and the step adds nothing. -/
def Obligations.StepRunsDecodedInstruction : Prop :=
  ∀ (s : State) (n : Nat) (bs : List Byte) (i : Instr), s.run = .running → s.stop = false →
    readBytes loMem s s.pc n = .ok bs → decode s.acc8 bs = .ok (i, []) → step s = exec i s

/-- Rules R107, R108 (the spec's decision D24, log 17): the conditions of a step in their order; each fault leaves every
register as it was (R105, the spec's decision D10, log 15). -/
def Obligations.ChecksComeInOrder : Prop :=
  ∀ s : State, s.run = .running →
    (s.stop = true → step s = .next { s with run := .stopped }) ∧
    (s.stop = false →
      (loMem s.pc = none → step s = .next { s with
        run := .faulted (.mappingFault s.pc),
        outputs := s.outputs ++ [.mappingReport (s.pc / 0x10000) (s.pc % 0x10000)] }) ∧
      (∀ off, loMem s.pc = some { region := .cartridge, off := off } → s.romSize ≤ off → step s = .next { s with
        run := .faulted (.romBoundsFault s.pc off),
        outputs := s.outputs ++ [.romBoundsReport (s.pc / 0x10000) (s.pc % 0x10000) off] }) ∧
      ∀ opcode, readByte loMem s s.pc = .ok opcode →
        (opcodeSize s.acc8 opcode = none → step s = .next { s with
          run := .faulted (.decodeFault opcode s.pc), outputs := s.outputs ++ [.decodeReport opcode s.pc] }) ∧
        ∀ size k, opcodeSize s.acc8 opcode = some size → 1 ≤ k → k < size →
          (∀ j < k, ∃ b, readByte loMem s (s.pc + j) = .ok b) →
          (loMem (s.pc + k) = none → step s = .next { s with
            run := .faulted (.mappingFault (s.pc + k)),
            outputs := s.outputs ++ [.mappingReport ((s.pc + k) / 0x10000) ((s.pc + k) % 0x10000)] }) ∧
          ∀ off, loMem (s.pc + k) = some { region := .cartridge, off := off } → s.romSize ≤ off →
            step s = .next { s with
              run := .faulted (.romBoundsFault (s.pc + k) off),
              outputs := s.outputs ++ [.romBoundsReport ((s.pc + k) / 0x10000) ((s.pc + k) % 0x10000) off] })

/-- Rules R73, R100: exactly the bytes outside the eight raise a decode fault, with the byte and PC recorded. That no
register is written is the spec's decision D10 (log 15). -/
def Obligations.IllegalOpcodesFault : Prop :=
  ∀ (s : State) (opcode : Byte), s.run = .running → s.stop = false → readByte loMem s s.pc = .ok opcode →
    (opcode ∉ [0x18#8, 0x5B#8, 0x78#8, 0x8D#8, 0x9C#8, 0xA9#8, 0xC2#8, 0xFB#8] ↔
      ∃ t, step s = .next t ∧ ∃ op pc, t.run = .faulted (.decodeFault op pc)) ∧
    ∀ t op pc, step s = .next t → t.run = .faulted (.decodeFault op pc) →
      op = opcode ∧ pc = s.pc ∧ t.pc = s.pc ∧ t.a = s.a ∧ t.dp = s.dp ∧ t.p = s.p ∧ t.e = s.e

/-- Rules R104 to R106: a step that ends in a fault changes the run-state and puts out one report, nothing else (the
unchanged registers are the spec's decision D10, log 15). -/
def Obligations.FaultsArePrecise : Prop :=
  ∀ (s t : State) (f : FaultCause), step s = .next t → t.run = .faulted f →
    t = { s with run := .faulted f, outputs := s.outputs ++ [f.report] }

/-- Rules R36, R81, R134 (the spec's decision D2, log 8): no step lowers `stop`, and a request raised while a step runs
ends the run at the very next iteration, with what that step left. -/
def Obligations.StopIsStickyAndPrompt : Prop :=
  ∀ s t : State, step s = .next t → t.stop = s.stop ∧
    (t.run = .running → step (raiseStop t) = .next { t with stop := true, run := .stopped })

/-- Rule R79 (the spec's decision D12, log 6): a core that ended has no step, and that is the only way to have none. -/
def Obligations.OnlyEndedCoresAreStuck : Prop :=
  ∀ s : State,
    (s.run = .stopped → step s = .fault .coreStopped) ∧ (∀ f, s.run = .faulted f → step s = .fault (.coreFaulted f)) ∧
    (s.run = .running → ∃ t, step s = .next t)

/-- Rules R108, R114: the controller can tell a requested stop from an early end, and a request that was up at the top of
the iteration wins over any fault. -/
def Obligations.EndsTellStopFromFault : Prop :=
  ∀ s t : State, step s = .next t →
    (t.endedAsRequested ↔ s.stop = true) ∧ (t.endedEarly ↔ s.stop = false ∧ ∃ f, fetch loMem s = .error f)

/-- Rules R53, R56, R133: an instruction whose bytes cross the end of its bank takes a mapping fault at the first address
of the next bank; nothing wraps (the spec's decision D20, log 12). -/
def Obligations.BankEndFaults : Prop :=
  ∀ (s : State) (opcode : Byte) (size : Nat), s.run = .running → s.stop = false →
    readByte loMem s s.pc = .ok opcode → opcodeSize s.acc8 opcode = some size →
    0x10000 < s.pc % 0x10000 + size → (∀ j, s.pc % 0x10000 + j < 0x10000 → ∃ b, readByte loMem s (s.pc + j) = .ok b) →
    step s = .next (takeFault (.mappingFault ((s.pc / 0x10000 + 1) * 0x10000)) s)

/-- Rules R21, R88: from any state, PC passes the end of no bank and never rises above `0x400000`. -/
def Obligations.PcStaysInItsBank : Prop :=
  ∀ s t : State, step s = .next t →
    s.pc ≤ t.pc ∧ t.pc ≤ (s.pc / 0x10000 + 1) * 0x10000 ∧ (s.pc ≤ 0x400000 → t.pc ≤ 0x400000)

/-- Rules R88, R135: every run from every state ends. At most `0x8000` instructions complete, and after at most one more
step, the one that ends the run, there is none. -/
def Obligations.EveryRunEnds : Prop :=
  ∀ (n : Nat) (s t : State), Host.Core.run Sys2Proof.core n s = .next t →
    n ≤ 0x8001 ∧ (t.run = .running → n ≤ 0x8000)

/-- Every step keeps the invariant of runs: the canonical cartridge with its reset vector, the reach of PC, and an end
that is true and reported (rules R21, R55, R88, R100 to R106). The canonical form is the model's choice (log 1, log 2). -/
def Obligations.StepKeepsInvariant : Prop :=
  ∀ s t : State, s.Inv → step s = .next t → t.Inv

/-! ### Reset and the host -/

/-- Rule R124: PC after reset is the two-byte little-endian value at file offset `0x7FFC`, in bank 0. The same two bytes
are what the addresses `0x00FFFC` and `0x00FFFD` read. -/
def Obligations.ResetVectorSeedsPc : Prop :=
  ∀ (v : ResetValues) (file : List Byte) (s : State) (lo hi : Byte), State.powerOn v file = some s →
    file[0x7FFC]? = some lo → file[0x7FFD]? = some hi →
    s.pc = lo.toNat + 0x100 * hi.toNat ∧ bank s.pc = 0 ∧ offset s.pc = s.pc ∧
      readByte loMem s 0xFFFC = .ok lo ∧ readByte loMem s 0xFFFD = .ok hi

/-- Rules R8, R38, R125, R128: power-on loads the whole file and takes the open parameters, for every value of them; a file
below `0x7FFE` bytes gives no state. `stop = 0` is the spec's decision D2, the length bound D13, the parameters D1
(log 4, log 5, log 20). -/
def Obligations.PowerOnLoadsFileAndParameters : Prop :=
  ∀ (v : ResetValues) (file : List Byte),
    (file.length < 0x7FFE → State.powerOn v file = none) ∧
    (0x7FFE ≤ file.length → ∃ s, State.powerOn v file = some s ∧ s.a = v.a ∧ s.dp = v.dp ∧ s.p = v.p ∧ s.e = v.e ∧
      s.run = .running ∧ s.stop = false ∧ s.outputs = [] ∧ s.romSize = file.length ∧
      ∀ i (h : i < file.length), Memory.byteAt s.rom i = file[i])

/-- The invariant holds after every power-on, and at the model's own reset state (log 2 to log 5 name its values). -/
def Obligations.InvariantHoldsAfterReset : Prop :=
  State.reset.Inv ∧ ∀ (v : ResetValues) (file : List Byte) (s : State), State.powerOn v file = some s → s.Inv

/-- Rule R128, item 3: when the first fetch after power-on cannot succeed, and the fault it takes. -/
def Obligations.FirstFetchNeedsAGoodVector : Prop :=
  ∀ (v : ResetValues) (file : List Byte) (s : State), State.powerOn v file = some s →
    (s.pc < 0x8000 → step s = .next (takeFault (.mappingFault s.pc) s)) ∧
    (0x8000 ≤ s.pc → file.length ≤ s.pc - 0x8000 →
      step s = .next (takeFault (.romBoundsFault s.pc (s.pc - 0x8000)) s)) ∧
    (0x8000 ≤ s.pc → s.pc - 0x8000 < file.length → ∃ b, readByte loMem s s.pc = .ok b)

/-- The model's own placing of an instruction (log 19): from every state with a canonical cartridge, the next step runs
the instruction of the table word. -/
def Obligations.PlacedInstructionRuns : Prop :=
  ∀ (s : State) (nbits w : Nat) (i : Instr), s.romWf = true → decodeTableWord nbits w = some i →
    step (s.withFetchWord nbits w) = exec i (s.withFetchWord nbits w)
end

