-- ==== Sys2Proof/Laws/Decode.lean ====
section
/-! SUPPORT. The opcode table as a list of cases. -/

namespace Sys2Proof

/-! One lemma per row, so that no proof unfolds the table. -/

@[simp] theorem decodeOpcode_clc (acc8 : Bool) : decodeOpcode acc8 0x18#8 = some (.none .clc) := rfl
@[simp] theorem decodeOpcode_tcd (acc8 : Bool) : decodeOpcode acc8 0x5B#8 = some (.none .tcd) := rfl
@[simp] theorem decodeOpcode_sei (acc8 : Bool) : decodeOpcode acc8 0x78#8 = some (.none .sei) := rfl
@[simp] theorem decodeOpcode_sta (acc8 : Bool) : decodeOpcode acc8 0x8D#8 = some (.word .sta) := rfl
@[simp] theorem decodeOpcode_stz (acc8 : Bool) : decodeOpcode acc8 0x9C#8 = some (.word .stz) := rfl
@[simp] theorem decodeOpcode_ldaByte : decodeOpcode true 0xA9#8 = some (.byte .ldaImm8) := rfl
@[simp] theorem decodeOpcode_ldaWord : decodeOpcode false 0xA9#8 = some (.word .ldaImm16) := rfl
@[simp] theorem decodeOpcode_rep (acc8 : Bool) : decodeOpcode acc8 0xC2#8 = some (.byte .rep) := rfl
@[simp] theorem decodeOpcode_xce (acc8 : Bool) : decodeOpcode acc8 0xFB#8 = some (.none .xce) := rfl

/-- Every row of the opcode table: which opcode byte gives which form. -/
theorem decodeOpcode_some (acc8 : Bool) (opcode : Byte) (form : OperandForm) (h : decodeOpcode acc8 opcode = some form) :
    (opcode = 0x18#8 ∧ form = .none .clc) ∨ (opcode = 0x5B#8 ∧ form = .none .tcd) ∨
    (opcode = 0x78#8 ∧ form = .none .sei) ∨ (opcode = 0x8D#8 ∧ form = .word .sta) ∨
    (opcode = 0x9C#8 ∧ form = .word .stz) ∨ (opcode = 0xA9#8 ∧ acc8 = true ∧ form = .byte .ldaImm8) ∨
    (opcode = 0xA9#8 ∧ acc8 = false ∧ form = .word .ldaImm16) ∨ (opcode = 0xC2#8 ∧ form = .byte .rep) ∨
    (opcode = 0xFB#8 ∧ form = .none .xce) := by
  unfold decodeOpcode at h
  split_ifs at h <;> (injection h with h; subst h; simp_all)

/-- The opcode bytes of the table. -/
def opcodeBytes : List Byte := [0x18#8, 0x5B#8, 0x78#8, 0x8D#8, 0x9C#8, 0xA9#8, 0xC2#8, 0xFB#8]

theorem decodeOpcode_none_iff (acc8 : Bool) (opcode : Byte) :
    decodeOpcode acc8 opcode = none ↔ opcode ∉ opcodeBytes := by
  unfold decodeOpcode opcodeBytes
  split_ifs <;> simp_all

end Sys2Proof
end

