-- ==== Sys2Proof/Laws/Flags.lean ====
section
/-! SUPPORT. What each flag computation does to each bit of P. -/

namespace Sys2Proof.Machine

/-- Two status bytes with the same eight bits are the same byte. -/
theorem byte_ext_flags (p q : Byte) (h : ∀ i < 8, flag p i = flag q i) : p = q :=
  BitVec.eq_of_getLsbD_eq h

theorem flag_setFlag (p : Byte) (i j : Nat) (b : Bool) (h : i < 8) :
    flag (setFlag p i b) j = if j = i then b else flag p j := by
  unfold flag setFlag
  by_cases hj : j < 8
  · by_cases e : j = i
    · subst e
      cases b <;> simp [hj]
    · cases b <;> simp [hj, e] <;> omega
  · have e : j ≠ i := by omega
    simp [e, BitVec.getLsbD_of_ge _ j (by omega : 8 ≤ j)]

theorem flag_clearCarry (p : Byte) (j : Nat) : flag (clearCarry p) j = if j = 0 then false else flag p j :=
  flag_setFlag p carryBit j false (by decide)

theorem flag_setIrqDisable (p : Byte) (j : Nat) : flag (setIrqDisable p) j = if j = 2 then true else flag p j :=
  flag_setFlag p irqDisableBit j true (by decide)

theorem flag_clearMask (p mask : Byte) (j : Nat) : flag (clearMask p mask) j = (flag p j && !flag mask j) := by
  unfold flag clearMask
  by_cases hj : j < 8
  · simp [hj]
  · simp [BitVec.getLsbD_of_ge _ j (by omega : 8 ≤ j)]

theorem flag_setTransferFlags (w : Nat) (v : BitVec w) (p : Byte) (j : Nat) :
    flag (setTransferFlags w v p) j = if j = 7 then v.msb else if j = 1 then (v == 0#w) else flag p j := by
  unfold setTransferFlags
  rw [flag_setFlag _ _ _ _ (by decide), flag_setFlag _ _ _ _ (by decide)]
  rfl

theorem flag_exchangeFlags (oldE : Bool) (p : Byte) (j : Nat) :
    flag (exchangeFlags oldE p) j =
      if j = 0 then oldE
      else if j = 4 then (if oldE = carry p then flag p 4 else oldE)
      else if j = 5 then (if oldE && !carry p then true else flag p 5)
      else flag p j := by
  unfold exchangeFlags
  by_cases j0 : j = 0
  · cases oldE <;> cases carry p <;> simp [flag_setFlag, j0, carryBit, breakOrIndexBit, accWidthBit]
  · by_cases j4 : j = 4
    · cases oldE <;> cases carry p <;> simp [flag_setFlag, j4, carryBit, breakOrIndexBit, accWidthBit]
    · by_cases j5 : j = 5
      · cases oldE <;> cases carry p <;> simp [flag_setFlag, j5, carryBit, breakOrIndexBit, accWidthBit]
      · cases oldE <;> cases carry p <;>
          simp [flag_setFlag, j0, j4, j5, carryBit, breakOrIndexBit, accWidthBit]

end Sys2Proof.Machine
end

