-- ==== Sys2Proof/Laws/Memory.lean ====
section
/-! SUPPORT. The cartridge's canonical form: every operation keeps it, reset has it, and equal cartridges are equal data. -/

namespace Sys2Proof.Machine

theorem risingFrom_mono {lo lo' : Nat} (hle : lo' ≤ lo) {rom : List Host.Cell} (h : Memory.risingFrom lo rom = true) :
    Memory.risingFrom lo' rom = true := by
  cases rom with
  | nil => rfl
  | cons cell rest =>
    simp only [Memory.risingFrom, Bool.and_eq_true, decide_eq_true_eq] at h ⊢
    exact ⟨⟨by omega, h.1.2⟩, h.2⟩

/-- Below the first offset a canonical list may hold, every byte is blank. -/
theorem byteAt_of_risingFrom {lo i : Nat} (hi : i < lo) {rom : List Host.Cell} (h : Memory.risingFrom lo rom = true) :
    Memory.byteAt rom i = Config.blankRomByte := by
  induction rom generalizing lo with
  | nil => rfl
  | cons cell rest ih =>
    simp only [Memory.risingFrom, Bool.and_eq_true, decide_eq_true_eq] at h
    rw [Memory.byteAt, if_neg (by omega : ¬ cell.1 = i)]
    exact ih (by omega) h.2

/-- Reading back: the byte placed where it was placed, every other byte as before. -/
theorem byteAt_put {lo : Nat} {rom : List Host.Cell} (h : Memory.risingFrom lo rom = true) (i j : Nat) (b : Byte) :
    Memory.byteAt (Memory.put rom i b) j = if j = i then b else Memory.byteAt rom j := by
  induction rom generalizing lo with
  | nil =>
    by_cases hb : b = Config.blankRomByte
    · simp [Memory.put, Memory.byteAt, hb]
    · simp [Memory.put, Memory.byteAt, hb, eq_comm]
  | cons cell rest ih =>
    obtain ⟨k, c⟩ := cell
    simp only [Memory.risingFrom, Bool.and_eq_true, decide_eq_true_eq] at h
    have below : ∀ m, m < k + 1 → Memory.byteAt rest m = Config.blankRomByte :=
      fun m hm => byteAt_of_risingFrom hm h.2
    simp only [Memory.put]
    by_cases hlt : i < k
    · by_cases hb : b = Config.blankRomByte
      · simp only [hlt, hb, if_true, Memory.byteAt]
        by_cases hji : j = i
        · subst hji
          rw [if_neg (by omega), below j (by omega), if_pos rfl]
        · rw [if_neg hji]
      · simp only [hlt, hb, if_true, if_false, Memory.byteAt]
        by_cases hji : j = i
        · simp [hji]
        · rw [if_neg (by omega), if_neg hji]
    · by_cases hik : i = k
      · subst hik
        by_cases hb : b = Config.blankRomByte
        · simp only [hlt, hb, if_true, if_false, Memory.byteAt]
          by_cases hji : j = i
          · subst hji
            rw [below j (by omega), if_pos rfl]
          · rw [if_neg hji, if_neg (by omega)]
        · simp only [hlt, hb, if_true, if_false, Memory.byteAt]
          by_cases hji : j = i
          · simp [hji]
          · rw [if_neg (by omega), if_neg hji, if_neg (by omega)]
      · simp only [hlt, hik, if_false, Memory.byteAt]
        rw [ih h.2]
        by_cases hkj : k = j
        · rw [if_pos hkj, if_neg (by omega), if_pos hkj]
        · rw [if_neg hkj, if_neg hkj]

theorem put_risingFrom {lo i : Nat} (hi : lo ≤ i) {rom : List Host.Cell} (h : Memory.risingFrom lo rom = true) (b : Byte) :
    Memory.risingFrom lo (Memory.put rom i b) = true := by
  induction rom generalizing lo with
  | nil =>
    simp only [Memory.put]
    split_ifs with hb <;> simp [Memory.risingFrom, hi, hb]
  | cons cell rest ih =>
    obtain ⟨k, c⟩ := cell
    simp only [Memory.risingFrom, Bool.and_eq_true, decide_eq_true_eq] at h
    simp only [Memory.put]
    split_ifs with hlt hb hik hb
    · simp [Memory.risingFrom, h]
    · simp only [Memory.risingFrom, Bool.and_eq_true, decide_eq_true_eq]
      exact ⟨⟨hi, hb⟩, ⟨by omega, h.1.2⟩, h.2⟩
    · exact risingFrom_mono (by omega) h.2
    · subst hik
      simp only [Memory.risingFrom, Bool.and_eq_true, decide_eq_true_eq]
      exact ⟨⟨hi, hb⟩, h.2⟩
    · simp only [Memory.risingFrom, Bool.and_eq_true, decide_eq_true_eq]
      exact ⟨h.1, ih (by omega) h.2⟩

theorem put_bounded {size i : Nat} (hi : i < size) {rom : List Host.Cell} (h : ∀ cell ∈ rom, cell.1 < size) (b : Byte) :
    ∀ cell ∈ Memory.put rom i b, cell.1 < size := by
  induction rom with
  | nil =>
    simp only [Memory.put]
    split_ifs <;> simp [hi]
  | cons cell rest ih =>
    obtain ⟨k, c⟩ := cell
    have hk : k < size := h (k, c) (by simp)
    have hrest : ∀ cell ∈ rest, cell.1 < size := fun x hx => h x (by simp [hx])
    simp only [Memory.put]
    split_ifs
    · exact h
    · exact List.forall_mem_cons.mpr ⟨hi, h⟩
    · exact hrest
    · exact List.forall_mem_cons.mpr ⟨hi, hrest⟩
    · exact List.forall_mem_cons.mpr ⟨hk, ih hrest⟩

theorem wf_iff (size : Nat) (rom : List Host.Cell) :
    Memory.wf size rom = true ↔ Memory.risingFrom 0 rom = true ∧ ∀ cell ∈ rom, cell.1 < size := by
  simp [Memory.wf]

theorem wf_grow {size size' : Nat} (hle : size ≤ size') {rom : List Host.Cell} (h : Memory.wf size rom = true) :
    Memory.wf size' rom = true := by
  rw [wf_iff] at h ⊢
  exact ⟨h.1, fun cell hc => by have := h.2 cell hc; omega⟩

/-- Placing a byte inside the cartridge keeps the canonical form. -/
theorem put_wf {size i : Nat} (hi : i < size) {rom : List Host.Cell} (h : Memory.wf size rom = true) (b : Byte) :
    Memory.wf size (Memory.put rom i b) = true := by
  rw [wf_iff] at h ⊢
  exact ⟨put_risingFrom (by omega) h.1 b, put_bounded hi h.2 b⟩

theorem putAll_wf {size i : Nat} {rom : List Host.Cell} (bs : List Byte) (hi : i + bs.length ≤ size)
    (h : Memory.wf size rom = true) : Memory.wf size (Memory.putAll rom i bs) = true := by
  induction bs generalizing rom i with
  | nil => exact h
  | cons b bs ih =>
    simp only [List.length_cons] at hi
    exact ih (by omega) (put_wf (by omega) h b)

/-- Reading back after placing consecutive bytes. -/
theorem byteAt_putAll {size : Nat} {rom : List Host.Cell} (bs : List Byte) (i j : Nat) (hi : i + bs.length ≤ size)
    (h : Memory.wf size rom = true) :
    Memory.byteAt (Memory.putAll rom i bs) j = if i ≤ j then (bs[j - i]?).getD (Memory.byteAt rom j) else Memory.byteAt rom j := by
  induction bs generalizing rom i with
  | nil => simp [Memory.putAll]
  | cons b bs ih =>
    simp only [List.length_cons] at hi
    rw [Memory.putAll, ih (i + 1) (by omega) (put_wf (by omega) h b), byteAt_put (wf_iff _ _ |>.mp h).1]
    rcases Nat.lt_trichotomy i j with hlt | rfl | hgt
    · rw [if_pos (by omega), if_neg (by omega), if_pos (by omega), (by omega : j - i = (j - (i + 1)) + 1)]
      simp
    · simp
    · rw [if_neg (by omega), if_neg (by omega), if_neg (by omega)]

theorem ofFile_risingFrom (i : Nat) (file : List Byte) : Memory.risingFrom i (Memory.ofFile i file) = true := by
  induction file generalizing i with
  | nil => rfl
  | cons b bs ih =>
    simp only [Memory.ofFile]
    split_ifs with hb
    · exact risingFrom_mono (by omega) (ih (i + 1))
    · simp [Memory.risingFrom, hb, ih (i + 1)]

theorem ofFile_bounded (i : Nat) (file : List Byte) : ∀ cell ∈ Memory.ofFile i file, cell.1 < i + file.length := by
  induction file generalizing i with
  | nil => simp [Memory.ofFile]
  | cons b bs ih =>
    intro cell hc
    simp only [Memory.ofFile] at hc
    split_ifs at hc with hb
    · have := ih (i + 1) cell hc
      simp only [List.length_cons]
      omega
    · rcases List.mem_cons.mp hc with rfl | hc
      · simp
      · have := ih (i + 1) cell hc
        simp only [List.length_cons]
        omega

/-- A loaded file is canonical. -/
theorem ofFile_wf (file : List Byte) : Memory.wf file.length (Memory.ofFile 0 file) = true := by
  rw [wf_iff]
  exact ⟨ofFile_risingFrom 0 file, by simpa using ofFile_bounded 0 file⟩

/-- A loaded file reads as its own bytes. -/
theorem byteAt_ofFile (i j : Nat) (file : List Byte) (hj : j < file.length) :
    Memory.byteAt (Memory.ofFile i file) (i + j) = file[j] := by
  induction file generalizing i j with
  | nil => simp at hj
  | cons b bs ih =>
    simp only [Memory.ofFile]
    cases j with
    | zero =>
      split_ifs with hb
      · simpa [hb] using byteAt_of_risingFrom (by omega : i < i + 1) (ofFile_risingFrom (i + 1) bs)
      · simp [Memory.byteAt]
    | succ j =>
      have hj' : j < bs.length := by simpa using hj
      have := ih (i + 1) j hj'
      rw [(by omega : i + 1 + j = i + (j + 1))] at this
      split_ifs with hb
      · simpa using this
      · rw [Memory.byteAt, if_neg (by omega)]
        simpa using this

/-- Canonical cartridges that read the same are the same list. -/
theorem rom_ext {lo : Nat} {r₁ r₂ : List Host.Cell} (h₁ : Memory.risingFrom lo r₁ = true) (h₂ : Memory.risingFrom lo r₂ = true)
    (h : ∀ i, Memory.byteAt r₁ i = Memory.byteAt r₂ i) : r₁ = r₂ := by
  induction r₁ generalizing lo r₂ with
  | nil =>
    cases r₂ with
    | nil => rfl
    | cons cell rest =>
      have := h cell.1
      simp only [Memory.risingFrom, Bool.and_eq_true, decide_eq_true_eq] at h₂
      simp [Memory.byteAt] at this
      exact absurd this.symm h₂.1.2
  | cons c₁ rest₁ ih =>
    obtain ⟨k₁, b₁⟩ := c₁
    simp only [Memory.risingFrom, Bool.and_eq_true, decide_eq_true_eq] at h₁
    cases r₂ with
    | nil =>
      have := h k₁
      simp [Memory.byteAt] at this
      exact absurd this h₁.1.2
    | cons c₂ rest₂ =>
      obtain ⟨k₂, b₂⟩ := c₂
      simp only [Memory.risingFrom, Bool.and_eq_true, decide_eq_true_eq] at h₂
      have hk : k₁ = k₂ := by
        rcases Nat.lt_trichotomy k₁ k₂ with hlt | heq | hgt
        · have := h k₁
          rw [Memory.byteAt, if_pos rfl, Memory.byteAt, if_neg (by omega),
            byteAt_of_risingFrom (by omega : k₁ < k₂ + 1) h₂.2] at this
          exact absurd this h₁.1.2
        · exact heq
        · have := h k₂
          rw [Memory.byteAt, if_neg (by omega), Memory.byteAt, if_pos rfl,
            byteAt_of_risingFrom (by omega : k₂ < k₁ + 1) h₁.2] at this
          exact absurd this.symm h₂.1.2
      subst hk
      have hb : b₁ = b₂ := by simpa [Memory.byteAt] using h k₁
      subst hb
      rw [ih h₁.2 h₂.2]
      intro i
      by_cases hi : i < k₁ + 1
      · rw [byteAt_of_risingFrom hi h₁.2, byteAt_of_risingFrom hi h₂.2]
      · have := h i
        rwa [Memory.byteAt, if_neg (by omega), Memory.byteAt, if_neg (by omega)] at this

/-- Equal cartridges are equal data. -/
theorem wf_ext {size : Nat} {r₁ r₂ : List Host.Cell} (h₁ : Memory.wf size r₁ = true) (h₂ : Memory.wf size r₂ = true)
    (h : ∀ i, Memory.byteAt r₁ i = Memory.byteAt r₂ i) : r₁ = r₂ :=
  rom_ext (wf_iff _ _ |>.mp h₁).1 (wf_iff _ _ |>.mp h₂).1 h

theorem reset_romWf : State.reset.romWf = true := by decide

theorem placeBytes_romWf (off : Nat) (bs : List Byte) (s : State) (h : s.romWf = true) :
    (placeBytes off bs s).romWf = true :=
  putAll_wf bs (Nat.le_max_right _ _) (wf_grow (Nat.le_max_left _ _) h)

theorem seatPc_romWf (s : State) (h : s.romWf = true) : (seatPc s).romWf = true := by
  unfold seatPc
  split
  · exact h
  · exact placeBytes_romWf _ _ _ h

/-- A power-on's state, said once. -/
theorem powerOn_some_iff (v : ResetValues) (file : List Byte) (s : State) :
    State.powerOn v file = some s ↔
      0x7FFE ≤ file.length ∧ s = State.seeded v file.length (Memory.ofFile 0 file) := by
  unfold State.powerOn Config.minRomSize
  split_ifs with h
  · simp; omega
  · simp [Nat.le_of_not_lt h, eq_comm]

end Sys2Proof.Machine
end

