-- ==== Sys2Proof/Laws/State.lean ====
section
/-! SUPPORT. One lemma per field per update of State, so that no proof unfolds a record update. -/

namespace Sys2Proof.Machine

@[simp] theorem State.setPc_pc (s : State) (x : Nat) : (s.setPc x).pc = x := rfl
@[simp] theorem State.setPc_a (s : State) (x : Nat) : (s.setPc x).a = s.a := rfl
@[simp] theorem State.setPc_dp (s : State) (x : Nat) : (s.setPc x).dp = s.dp := rfl
@[simp] theorem State.setPc_p (s : State) (x : Nat) : (s.setPc x).p = s.p := rfl
@[simp] theorem State.setPc_e (s : State) (x : Nat) : (s.setPc x).e = s.e := rfl
@[simp] theorem State.setPc_run (s : State) (x : Nat) : (s.setPc x).run = s.run := rfl
@[simp] theorem State.setPc_stop (s : State) (x : Nat) : (s.setPc x).stop = s.stop := rfl
@[simp] theorem State.setPc_romSize (s : State) (x : Nat) : (s.setPc x).romSize = s.romSize := rfl
@[simp] theorem State.setPc_rom (s : State) (x : Nat) : (s.setPc x).rom = s.rom := rfl
@[simp] theorem State.setPc_outputs (s : State) (x : Nat) : (s.setPc x).outputs = s.outputs := rfl

@[simp] theorem State.setA_pc (s : State) (x : Word) : (s.setA x).pc = s.pc := rfl
@[simp] theorem State.setA_a (s : State) (x : Word) : (s.setA x).a = x := rfl
@[simp] theorem State.setA_dp (s : State) (x : Word) : (s.setA x).dp = s.dp := rfl
@[simp] theorem State.setA_p (s : State) (x : Word) : (s.setA x).p = s.p := rfl
@[simp] theorem State.setA_e (s : State) (x : Word) : (s.setA x).e = s.e := rfl
@[simp] theorem State.setA_run (s : State) (x : Word) : (s.setA x).run = s.run := rfl
@[simp] theorem State.setA_stop (s : State) (x : Word) : (s.setA x).stop = s.stop := rfl
@[simp] theorem State.setA_romSize (s : State) (x : Word) : (s.setA x).romSize = s.romSize := rfl
@[simp] theorem State.setA_rom (s : State) (x : Word) : (s.setA x).rom = s.rom := rfl
@[simp] theorem State.setA_outputs (s : State) (x : Word) : (s.setA x).outputs = s.outputs := rfl

@[simp] theorem State.setDp_pc (s : State) (x : Word) : (s.setDp x).pc = s.pc := rfl
@[simp] theorem State.setDp_a (s : State) (x : Word) : (s.setDp x).a = s.a := rfl
@[simp] theorem State.setDp_dp (s : State) (x : Word) : (s.setDp x).dp = x := rfl
@[simp] theorem State.setDp_p (s : State) (x : Word) : (s.setDp x).p = s.p := rfl
@[simp] theorem State.setDp_e (s : State) (x : Word) : (s.setDp x).e = s.e := rfl
@[simp] theorem State.setDp_run (s : State) (x : Word) : (s.setDp x).run = s.run := rfl
@[simp] theorem State.setDp_stop (s : State) (x : Word) : (s.setDp x).stop = s.stop := rfl
@[simp] theorem State.setDp_romSize (s : State) (x : Word) : (s.setDp x).romSize = s.romSize := rfl
@[simp] theorem State.setDp_rom (s : State) (x : Word) : (s.setDp x).rom = s.rom := rfl
@[simp] theorem State.setDp_outputs (s : State) (x : Word) : (s.setDp x).outputs = s.outputs := rfl

@[simp] theorem State.setP_pc (s : State) (x : Byte) : (s.setP x).pc = s.pc := rfl
@[simp] theorem State.setP_a (s : State) (x : Byte) : (s.setP x).a = s.a := rfl
@[simp] theorem State.setP_dp (s : State) (x : Byte) : (s.setP x).dp = s.dp := rfl
@[simp] theorem State.setP_p (s : State) (x : Byte) : (s.setP x).p = x := rfl
@[simp] theorem State.setP_e (s : State) (x : Byte) : (s.setP x).e = s.e := rfl
@[simp] theorem State.setP_run (s : State) (x : Byte) : (s.setP x).run = s.run := rfl
@[simp] theorem State.setP_stop (s : State) (x : Byte) : (s.setP x).stop = s.stop := rfl
@[simp] theorem State.setP_romSize (s : State) (x : Byte) : (s.setP x).romSize = s.romSize := rfl
@[simp] theorem State.setP_rom (s : State) (x : Byte) : (s.setP x).rom = s.rom := rfl
@[simp] theorem State.setP_outputs (s : State) (x : Byte) : (s.setP x).outputs = s.outputs := rfl

@[simp] theorem State.setE_pc (s : State) (x : Bool) : (s.setE x).pc = s.pc := rfl
@[simp] theorem State.setE_a (s : State) (x : Bool) : (s.setE x).a = s.a := rfl
@[simp] theorem State.setE_dp (s : State) (x : Bool) : (s.setE x).dp = s.dp := rfl
@[simp] theorem State.setE_p (s : State) (x : Bool) : (s.setE x).p = s.p := rfl
@[simp] theorem State.setE_e (s : State) (x : Bool) : (s.setE x).e = x := rfl
@[simp] theorem State.setE_run (s : State) (x : Bool) : (s.setE x).run = s.run := rfl
@[simp] theorem State.setE_stop (s : State) (x : Bool) : (s.setE x).stop = s.stop := rfl
@[simp] theorem State.setE_romSize (s : State) (x : Bool) : (s.setE x).romSize = s.romSize := rfl
@[simp] theorem State.setE_rom (s : State) (x : Bool) : (s.setE x).rom = s.rom := rfl
@[simp] theorem State.setE_outputs (s : State) (x : Bool) : (s.setE x).outputs = s.outputs := rfl

@[simp] theorem State.setRun_pc (s : State) (x : RunState) : (s.setRun x).pc = s.pc := rfl
@[simp] theorem State.setRun_a (s : State) (x : RunState) : (s.setRun x).a = s.a := rfl
@[simp] theorem State.setRun_dp (s : State) (x : RunState) : (s.setRun x).dp = s.dp := rfl
@[simp] theorem State.setRun_p (s : State) (x : RunState) : (s.setRun x).p = s.p := rfl
@[simp] theorem State.setRun_e (s : State) (x : RunState) : (s.setRun x).e = s.e := rfl
@[simp] theorem State.setRun_run (s : State) (x : RunState) : (s.setRun x).run = x := rfl
@[simp] theorem State.setRun_stop (s : State) (x : RunState) : (s.setRun x).stop = s.stop := rfl
@[simp] theorem State.setRun_romSize (s : State) (x : RunState) : (s.setRun x).romSize = s.romSize := rfl
@[simp] theorem State.setRun_rom (s : State) (x : RunState) : (s.setRun x).rom = s.rom := rfl
@[simp] theorem State.setRun_outputs (s : State) (x : RunState) : (s.setRun x).outputs = s.outputs := rfl

@[simp] theorem State.setStop_pc (s : State) (x : Bool) : (s.setStop x).pc = s.pc := rfl
@[simp] theorem State.setStop_a (s : State) (x : Bool) : (s.setStop x).a = s.a := rfl
@[simp] theorem State.setStop_dp (s : State) (x : Bool) : (s.setStop x).dp = s.dp := rfl
@[simp] theorem State.setStop_p (s : State) (x : Bool) : (s.setStop x).p = s.p := rfl
@[simp] theorem State.setStop_e (s : State) (x : Bool) : (s.setStop x).e = s.e := rfl
@[simp] theorem State.setStop_run (s : State) (x : Bool) : (s.setStop x).run = s.run := rfl
@[simp] theorem State.setStop_stop (s : State) (x : Bool) : (s.setStop x).stop = x := rfl
@[simp] theorem State.setStop_romSize (s : State) (x : Bool) : (s.setStop x).romSize = s.romSize := rfl
@[simp] theorem State.setStop_rom (s : State) (x : Bool) : (s.setStop x).rom = s.rom := rfl
@[simp] theorem State.setStop_outputs (s : State) (x : Bool) : (s.setStop x).outputs = s.outputs := rfl

@[simp] theorem State.setRom_pc (s : State) (n : Nat) (m : List Host.Cell) : (s.setRom n m).pc = s.pc := rfl
@[simp] theorem State.setRom_a (s : State) (n : Nat) (m : List Host.Cell) : (s.setRom n m).a = s.a := rfl
@[simp] theorem State.setRom_dp (s : State) (n : Nat) (m : List Host.Cell) : (s.setRom n m).dp = s.dp := rfl
@[simp] theorem State.setRom_p (s : State) (n : Nat) (m : List Host.Cell) : (s.setRom n m).p = s.p := rfl
@[simp] theorem State.setRom_e (s : State) (n : Nat) (m : List Host.Cell) : (s.setRom n m).e = s.e := rfl
@[simp] theorem State.setRom_run (s : State) (n : Nat) (m : List Host.Cell) : (s.setRom n m).run = s.run := rfl
@[simp] theorem State.setRom_stop (s : State) (n : Nat) (m : List Host.Cell) : (s.setRom n m).stop = s.stop := rfl
@[simp] theorem State.setRom_romSize (s : State) (n : Nat) (m : List Host.Cell) : (s.setRom n m).romSize = n := rfl
@[simp] theorem State.setRom_rom (s : State) (n : Nat) (m : List Host.Cell) : (s.setRom n m).rom = m := rfl
@[simp] theorem State.setRom_outputs (s : State) (n : Nat) (m : List Host.Cell) : (s.setRom n m).outputs = s.outputs := rfl

@[simp] theorem State.emit_pc (s : State) (o : Output) : (s.emit o).pc = s.pc := rfl
@[simp] theorem State.emit_a (s : State) (o : Output) : (s.emit o).a = s.a := rfl
@[simp] theorem State.emit_dp (s : State) (o : Output) : (s.emit o).dp = s.dp := rfl
@[simp] theorem State.emit_p (s : State) (o : Output) : (s.emit o).p = s.p := rfl
@[simp] theorem State.emit_e (s : State) (o : Output) : (s.emit o).e = s.e := rfl
@[simp] theorem State.emit_run (s : State) (o : Output) : (s.emit o).run = s.run := rfl
@[simp] theorem State.emit_stop (s : State) (o : Output) : (s.emit o).stop = s.stop := rfl
@[simp] theorem State.emit_romSize (s : State) (o : Output) : (s.emit o).romSize = s.romSize := rfl
@[simp] theorem State.emit_rom (s : State) (o : Output) : (s.emit o).rom = s.rom := rfl
@[simp] theorem State.emit_outputs (s : State) (o : Output) : (s.emit o).outputs = s.outputs ++ [o] := rfl

/-- Two states with the same fields are the same state. -/
theorem State.ext_fields (s t : State) (hpc : s.pc = t.pc) (ha : s.a = t.a) (hdp : s.dp = t.dp) (hp : s.p = t.p)
    (he : s.e = t.e) (hrun : s.run = t.run) (hstop : s.stop = t.stop) (hsize : s.romSize = t.romSize)
    (hrom : s.rom = t.rom) (hout : s.outputs = t.outputs) : s = t := by
  cases s; cases t; simp_all

end Sys2Proof.Machine
end

