-- ==== Sys2Proof/Laws/Ops.lean ====
section
/-! SUPPORT. For each shared operation over addresses, memory and operands, everything it can answer. -/

namespace Sys2Proof.Machine

/-- Where LoMem succeeds and what it answers. -/
theorem loMem_some_iff (a : Nat) (m : MapResult) :
    loMem a = some m ↔ a < 0x400000 ∧ 0x8000 ≤ a % 0x10000 ∧ m = { region := .cartridge, off := a - 0x8000 } := by
  unfold loMem bank offset
  split_ifs with h1 h2
  · simp; omega
  · simp; omega
  · rw [(by omega : a / 0x10000 * 0x10000 + a % 0x10000 - 0x8000 = a - 0x8000)]
    rw [Option.some.injEq]
    exact ⟨fun h => ⟨by omega, by omega, h.symm⟩, fun h => h.2.2.symm⟩

theorem loMem_none_iff (a : Nat) : loMem a = none ↔ ¬ (a < 0x400000 ∧ 0x8000 ≤ a % 0x10000) := by
  cases h : loMem a with
  | none =>
    refine ⟨fun _ hc => ?_, fun _ => rfl⟩
    have := (loMem_some_iff a { region := .cartridge, off := a - 0x8000 }).mpr ⟨hc.1, hc.2, rfl⟩
    simp [h] at this
  | some m =>
    have := (loMem_some_iff a m).mp h
    simp [this.1, this.2.1]

theorem readByte_ok_iff (s : State) (a : Nat) (b : Byte) :
    readByte loMem s a = .ok b ↔
      loMem a = some { region := .cartridge, off := a - 0x8000 } ∧ a - 0x8000 < s.romSize ∧
        b = Memory.byteAt s.rom (a - 0x8000) := by
  unfold readByte
  cases h : loMem a with
  | none => simp
  | some m =>
    obtain ⟨-, -, rfl⟩ := (loMem_some_iff a m).mp h
    by_cases hb : s.romSize ≤ a - 0x8000
    · simp [hb, Nat.not_lt.mpr hb]
    · simp [hb, Nat.lt_of_not_le hb, eq_comm]

theorem readByte_error (s : State) (a : Nat) (f : FaultCause) (h : readByte loMem s a = .error f) :
    (f = .mappingFault a ∧ loMem a = none) ∨
      (f = .romBoundsFault a (a - 0x8000) ∧ loMem a = some { region := .cartridge, off := a - 0x8000 } ∧
        s.romSize ≤ a - 0x8000) := by
  unfold readByte at h
  cases hm : loMem a with
  | none =>
    rw [hm] at h
    injection h with h
    exact .inl ⟨h.symm, rfl⟩
  | some m =>
    obtain ⟨-, -, rfl⟩ := (loMem_some_iff a m).mp hm
    rw [hm] at h
    by_cases hb : s.romSize ≤ a - 0x8000
    · simp only [hb, if_true, Except.error.injEq] at h
      exact .inr ⟨h.symm, rfl, hb⟩
    · simp [hb] at h

/-- A byte that can be read lies in a window of the map. -/
theorem readByte_ok_window {s : State} {a : Nat} {b : Byte} (h : readByte loMem s a = .ok b) :
    a < 0x400000 ∧ 0x8000 ≤ a % 0x10000 := by
  have := (loMem_some_iff _ _).mp ((readByte_ok_iff s a b).mp h).1
  exact ⟨this.1, this.2.1⟩

/-- Reads depend on nothing but the cartridge. -/
theorem readByte_congr (model : Model) {s t : State} (hsize : s.romSize = t.romSize) (hrom : s.rom = t.rom) (a : Nat) :
    readByte model s a = readByte model t a := by
  simp only [readByte, hsize, hrom]

theorem readBytes_congr (model : Model) {s t : State} (hsize : s.romSize = t.romSize) (hrom : s.rom = t.rom)
    (a : Nat) (n : Nat) : readBytes model s a n = readBytes model t a n := by
  induction n generalizing a with
  | zero => rfl
  | succ n ih => simp only [readBytes, readByte_congr model hsize hrom, ih]

theorem readBytes_ok_iff (model : Model) (s : State) (a : Nat) (n : Nat) (bs : List Byte) :
    readBytes model s a n = .ok bs ↔
      bs.length = n ∧ ∀ i (h : i < bs.length), readByte model s (a + i) = .ok bs[i] := by
  induction n generalizing a bs with
  | zero =>
    cases bs <;> simp [readBytes]
  | succ n ih =>
    simp only [readBytes]
    cases hb : readByte model s a with
    | error f =>
      simp only [reduceCtorEq, false_iff, not_and]
      intro hl h
      have := h 0 (by omega)
      simp [hb] at this
    | ok b =>
      cases hr : readBytes model s (a + 1) n with
      | error f =>
        simp only [reduceCtorEq, false_iff, not_and]
        intro hl h
        cases bs with
        | nil => simp at hl
        | cons c cs =>
          have := (ih (a + 1) cs).mpr ⟨by simpa using hl, fun i hi => by
            have := h (i + 1) (by simpa using hi)
            simpa [Nat.add_assoc, Nat.add_comm 1 i] using this⟩
          simp [hr] at this
      | ok cs =>
        have hcs := (ih (a + 1) cs).mp hr
        simp only [Except.ok.injEq]
        constructor
        · rintro rfl
          refine ⟨by simp [hcs.1], fun i hi => ?_⟩
          cases i with
          | zero => simpa using hb
          | succ i =>
            have := hcs.2 i (by simpa using hi)
            simpa [Nat.add_assoc, Nat.add_comm 1 i] using this
        · rintro ⟨hl, h⟩
          cases bs with
          | nil => simp at hl
          | cons c ds =>
            have h0 := h 0 (by simp)
            simp only [Nat.add_zero, hb, Except.ok.injEq, List.getElem_cons_zero] at h0
            have := (ih (a + 1) ds).mpr ⟨by simpa using hl, fun i hi => by
              have := h (i + 1) (by simpa using hi)
              simpa [Nat.add_assoc, Nat.add_comm 1 i] using this⟩
            rw [hr] at this
            injection this with this
            rw [h0, this]

/-- The fault of a failed read is the one of its lowest failing byte. -/
theorem readBytes_error (model : Model) (s : State) (a : Nat) (n : Nat) (f : FaultCause)
    (h : readBytes model s a n = .error f) :
    ∃ i < n, readByte model s (a + i) = .error f ∧ ∀ j < i, ∃ b, readByte model s (a + j) = .ok b := by
  induction n generalizing a with
  | zero => simp [readBytes] at h
  | succ n ih =>
    simp only [readBytes] at h
    cases hb : readByte model s a with
    | error g =>
      rw [hb] at h
      exact ⟨0, by omega, by simpa [hb] using h, by simp⟩
    | ok b =>
      rw [hb] at h
      cases hr : readBytes model s (a + 1) n with
      | ok cs => simp [hr] at h
      | error g =>
        simp only [hr, Except.error.injEq] at h
        subst h
        obtain ⟨i, hi, he, hlow⟩ := ih (a + 1) hr
        refine ⟨i + 1, by omega, by rw [← he]; congr 1; omega, fun j hj => ?_⟩
        cases j with
        | zero => exact ⟨b, by simpa using hb⟩
        | succ j =>
          obtain ⟨c, hc⟩ := hlow j (by omega)
          exact ⟨c, by rw [← hc]; congr 1; omega⟩

/-- The value of two bytes is the high one above the low one. -/
theorem combineLE_pair (lo hi : Byte) : BitVec.ofNat 16 (combineLE [lo, hi]) = hi ++ lo := by
  apply BitVec.eq_of_toNat_eq
  have hlo := lo.isLt
  have hhi := hi.isLt
  simp only [combineLE, Nat.zero_shiftLeft, Nat.or_zero, BitVec.toNat_ofNat, BitVec.toNat_append]
  rw [Nat.or_comm, ← Nat.shiftLeft_add_eq_or_of_lt hlo, Nat.shiftLeft_eq]
  omega

theorem combineLE_single (b : Byte) : BitVec.ofNat 8 (combineLE [b]) = b := by
  apply BitVec.eq_of_toNat_eq
  simp [combineLE]

theorem readOperandByte_ok_iff (model : Model) (s : State) (b : Byte) :
    readOperandByte model s = .ok b ↔ readByte model s (s.pc + 1) = .ok b := by
  unfold readOperandByte memRead
  cases h : readByte model s (s.pc + 1) with
  | error f => simp [readBytes, h, Except.map]
  | ok c => simp [readBytes, h, Except.map, combineLE]

theorem readOperandByte_error_iff (model : Model) (s : State) (f : FaultCause) :
    readOperandByte model s = .error f ↔ readByte model s (s.pc + 1) = .error f := by
  unfold readOperandByte memRead
  cases h : readByte model s (s.pc + 1) with
  | error g => simp [readBytes, h, Except.map]
  | ok c => simp [readBytes, h, Except.map]

theorem readOperandWord_ok_iff (model : Model) (s : State) (v : Word) :
    readOperandWord model s = .ok v ↔
      ∃ lo hi, readByte model s (s.pc + 1) = .ok lo ∧ readByte model s (s.pc + 2) = .ok hi ∧ v = hi ++ lo := by
  unfold readOperandWord memRead
  cases h1 : readByte model s (s.pc + 1) with
  | error f => simp [readBytes, h1, Except.map]
  | ok lo =>
    cases h2 : readByte model s (s.pc + 2) with
    | error f => simp [readBytes, h1, h2, Except.map]
    | ok hi =>
      simp only [readBytes, h1, h2, Except.map, combineLE_pair, Except.ok.injEq]
      constructor
      · rintro rfl
        exact ⟨lo, hi, rfl, rfl, rfl⟩
      · rintro ⟨_, _, rfl, rfl, rfl⟩
        rfl

theorem readOperandWord_error_iff (model : Model) (s : State) (f : FaultCause) :
    readOperandWord model s = .error f ↔
      readByte model s (s.pc + 1) = .error f ∨
        (∃ lo, readByte model s (s.pc + 1) = .ok lo) ∧ readByte model s (s.pc + 2) = .error f := by
  unfold readOperandWord memRead
  cases h1 : readByte model s (s.pc + 1) with
  | error g => simp [readBytes, h1, Except.map]
  | ok lo =>
    cases h2 : readByte model s (s.pc + 2) with
    | error g => simp [readBytes, h1, h2, Except.map]
    | ok hi => simp [readBytes, h1, h2, Except.map]

/-! ### Halves of a word -/

theorem low_of_append (hi lo : Byte) : (hi ++ lo : Word).extractLsb' 0 8 = lo := by
  apply BitVec.eq_of_getLsbD_eq
  intro i h
  rw [BitVec.getLsbD_extractLsb', Nat.zero_add]
  simp only [h, decide_true, Bool.true_and]
  exact (BitVec.getLsbD_append (x := hi) (y := lo) (i := i)).trans (by simp [h])

theorem high_of_append (hi lo : Byte) : (hi ++ lo : Word).extractLsb' 8 8 = hi := by
  apply BitVec.eq_of_getLsbD_eq
  intro i h
  rw [BitVec.getLsbD_extractLsb']
  simp only [h, decide_true, Bool.true_and]
  exact (BitVec.getLsbD_append (x := hi) (y := lo) (i := 8 + i)).trans (by simp)

theorem append_halves (v : Word) : (v.extractLsb' 8 8 ++ v.extractLsb' 0 8 : Word) = v := by
  apply BitVec.eq_of_getLsbD_eq
  intro i hi
  refine (BitVec.getLsbD_append (x := v.extractLsb' 8 8) (y := v.extractLsb' 0 8) (i := i)).trans ?_
  by_cases h : i < 8
  · simp [h]
  · simp [h, (by omega : i - 8 < 8), (by omega : 8 + (i - 8) = i)]

/-- Replacing the low byte gives that low byte and the old high byte. -/
theorem replaceLow_low (a : Word) (b : Byte) : (replaceLow a b).extractLsb' 0 8 = b := low_of_append _ _

theorem replaceLow_high (a : Word) (b : Byte) : (replaceLow a b).extractLsb' 8 8 = a.extractLsb' 8 8 :=
  high_of_append _ _

/-! ### The whole effect of the closing operations -/

theorem takeFault_eq (f : FaultCause) (s : State) :
    takeFault f s = { s with run := .faulted f, outputs := s.outputs ++ [f.report] } := rfl

theorem takeStop_eq (s : State) : takeStop s = { s with run := .stopped } := rfl

theorem complete_eq (size : Nat) (s : State) : complete size s = .next { s with pc := s.pc + size } := rfl

theorem raiseStop_eq (s : State) : raiseStop s = { s with stop := true } := rfl

theorem placeBytes_eq (off : Nat) (bs : List Byte) (s : State) :
    placeBytes off bs s =
      { s with romSize := max s.romSize (off + bs.length), rom := Memory.putAll s.rom off bs } := rfl

/-- Seating PC touches nothing but PC and the cartridge, keeps the cartridge canonical, and leaves room for the longest
instruction in one window of the map. -/
theorem seatPc_eq (s : State) :
    (seatPc s).pc % 0x10000 ≤ 0xFFFD ∧ 0x8000 ≤ (seatPc s).pc % 0x10000 ∧ (seatPc s).pc < 0x400000 ∧
      seatPc s = ((s.setPc (seatPc s).pc).setRom (seatPc s).romSize (seatPc s).rom) := by
  unfold seatPc
  split
  · rename_i h1 h2
    have := (loMem_some_iff _ _).mp h1
    have := (loMem_some_iff _ _).mp h2
    exact ⟨by omega, by omega, by omega, rfl⟩
  · exact ⟨show 0x8000 % 0x10000 ≤ 0xFFFD by decide, show 0x8000 ≤ 0x8000 % 0x10000 by decide,
      show 0x8000 < 0x400000 by decide, rfl⟩

end Sys2Proof.Machine
end

