-- ==== Sys2Proof/Laws/PerInstr.lean ====
section
/-! SUPPORT. Statements about every instruction as syntax, one lemma per constructor. -/

namespace Sys2Proof.Laws

/-- The encoding has as many bytes as the instruction's size says, between 1 and 3, and its first byte has that size in
the width the form exists in (rules R65, R68, R84). -/
def EncodedLength.Statement (i : Instr) : Prop :=
  (encode i).length = i.size ∧ 1 ≤ i.size ∧ i.size ≤ 3 ∧
    ∀ acc8, i.wellFormed acc8 = true → (encode i).head?.bind (opcodeSize acc8) = some i.size

theorem EncodedLength.clc : EncodedLength.Statement .clc :=
  ⟨rfl, by decide, by decide, fun _ _ => rfl⟩

theorem EncodedLength.tcd : EncodedLength.Statement .tcd :=
  ⟨rfl, by decide, by decide, fun _ _ => rfl⟩

theorem EncodedLength.sei : EncodedLength.Statement .sei :=
  ⟨rfl, by decide, by decide, fun _ _ => rfl⟩

theorem EncodedLength.sta (addr : Word) : EncodedLength.Statement (.sta addr) :=
  ⟨rfl, by simp [Instr.size], by simp [Instr.size], fun _ _ => rfl⟩

theorem EncodedLength.stz (addr : Word) : EncodedLength.Statement (.stz addr) :=
  ⟨rfl, by simp [Instr.size], by simp [Instr.size], fun _ _ => rfl⟩

theorem EncodedLength.ldaImm8 (imm : Byte) : EncodedLength.Statement (.ldaImm8 imm) :=
  ⟨rfl, by simp [Instr.size], by simp [Instr.size], fun acc8 h => by cases acc8 <;> first | rfl | cases h⟩

theorem EncodedLength.ldaImm16 (imm : Word) : EncodedLength.Statement (.ldaImm16 imm) :=
  ⟨rfl, by simp [Instr.size], by simp [Instr.size], fun acc8 h => by cases acc8 <;> first | rfl | cases h⟩

theorem EncodedLength.rep (mask : Byte) : EncodedLength.Statement (.rep mask) :=
  ⟨rfl, by simp [Instr.size], by simp [Instr.size], fun _ _ => rfl⟩

theorem EncodedLength.xce : EncodedLength.Statement .xce :=
  ⟨rfl, by decide, by decide, fun _ _ => rfl⟩

end Sys2Proof.Laws
end

