-- ==== Sys2Proof/Laws/Step.lean ====
section
/-! SUPPORT. What fetching, executing and stepping can do, said once. -/

namespace Sys2Proof.Machine

/-- Everything a successful fetch can have been: one case per row of the opcode table, with the bytes it read. -/
theorem fetch_ok_cases (s : State) (i : Instr) (h : fetch loMem s = .ok i) :
    (readByte loMem s s.pc = .ok 0x18#8 ∧ i = .clc) ∨ (readByte loMem s s.pc = .ok 0x5B#8 ∧ i = .tcd) ∨
    (readByte loMem s s.pc = .ok 0x78#8 ∧ i = .sei) ∨
    (readByte loMem s s.pc = .ok 0x8D#8 ∧ ∃ v, readOperandWord loMem s = .ok v ∧ i = .sta v) ∨
    (readByte loMem s s.pc = .ok 0x9C#8 ∧ ∃ v, readOperandWord loMem s = .ok v ∧ i = .stz v) ∨
    (readByte loMem s s.pc = .ok 0xA9#8 ∧ s.acc8 = true ∧ ∃ b, readOperandByte loMem s = .ok b ∧ i = .ldaImm8 b) ∨
    (readByte loMem s s.pc = .ok 0xA9#8 ∧ s.acc8 = false ∧ ∃ v, readOperandWord loMem s = .ok v ∧ i = .ldaImm16 v) ∨
    (readByte loMem s s.pc = .ok 0xC2#8 ∧ ∃ b, readOperandByte loMem s = .ok b ∧ i = .rep b) ∨
    (readByte loMem s s.pc = .ok 0xFB#8 ∧ i = .xce) := by
  unfold fetch at h
  cases hop : readByte loMem s s.pc with
  | error f => simp [hop] at h
  | ok opcode =>
    rw [hop] at h
    cases hform : decodeOpcode s.acc8 opcode with
    | none => simp [hform] at h
    | some form =>
      simp only [hform] at h
      have word : ∀ build, readOperands loMem s (.word build) = .ok i → ∃ v, readOperandWord loMem s = .ok v ∧ i = build v := by
        intro build hr
        cases hv : readOperandWord loMem s with
        | error f => simp [readOperands, hv, Except.map] at hr
        | ok v => exact ⟨v, rfl, by simpa [readOperands, hv, Except.map] using hr.symm⟩
      have byte : ∀ build, readOperands loMem s (.byte build) = .ok i → ∃ b, readOperandByte loMem s = .ok b ∧ i = build b := by
        intro build hr
        cases hv : readOperandByte loMem s with
        | error f => simp [readOperands, hv, Except.map] at hr
        | ok b => exact ⟨b, rfl, by simpa [readOperands, hv, Except.map] using hr.symm⟩
      have none : ∀ k, readOperands loMem s (.none k) = .ok i → i = k := by
        intro k hr
        simpa [readOperands] using hr.symm
      rcases decodeOpcode_some _ _ _ hform with
        ⟨rfl, rfl⟩ | ⟨rfl, rfl⟩ | ⟨rfl, rfl⟩ | ⟨rfl, rfl⟩ | ⟨rfl, rfl⟩ | ⟨rfl, hw, rfl⟩ | ⟨rfl, hw, rfl⟩ | ⟨rfl, rfl⟩ | ⟨rfl, rfl⟩
      · exact .inl ⟨rfl, none _ h⟩
      · exact .inr (.inl ⟨rfl, none _ h⟩)
      · exact .inr (.inr (.inl ⟨rfl, none _ h⟩))
      · exact .inr (.inr (.inr (.inl ⟨rfl, word _ h⟩)))
      · exact .inr (.inr (.inr (.inr (.inl ⟨rfl, word _ h⟩))))
      · exact .inr (.inr (.inr (.inr (.inr (.inl ⟨rfl, hw, byte _ h⟩)))))
      · exact .inr (.inr (.inr (.inr (.inr (.inr (.inl ⟨rfl, hw, word _ h⟩))))))
      · exact .inr (.inr (.inr (.inr (.inr (.inr (.inr (.inl ⟨rfl, byte _ h⟩)))))))
      · exact .inr (.inr (.inr (.inr (.inr (.inr (.inr (.inr ⟨rfl, none _ h⟩)))))))

/-- Every byte of a fetched instruction was read. -/
theorem fetch_ok_bytes (s : State) (i : Instr) (h : fetch loMem s = .ok i) :
    ∀ k < i.size, ∃ b, readByte loMem s (s.pc + k) = .ok b := by
  have one : ∀ b, readByte loMem s s.pc = .ok b → ∀ k < 1, ∃ b, readByte loMem s (s.pc + k) = .ok b := by
    intro b hb k hk
    obtain rfl : k = 0 := by omega
    exact ⟨b, hb⟩
  have two : ∀ b c, readByte loMem s s.pc = .ok b → readOperandByte loMem s = .ok c →
      ∀ k < 2, ∃ b, readByte loMem s (s.pc + k) = .ok b := by
    intro b c hb hc k hk
    rcases (by omega : k = 0 ∨ k = 1) with rfl | rfl
    exacts [⟨b, hb⟩, ⟨c, (readOperandByte_ok_iff _ _ _).mp hc⟩]
  have three : ∀ b v, readByte loMem s s.pc = .ok b → readOperandWord loMem s = .ok v →
      ∀ k < 3, ∃ b, readByte loMem s (s.pc + k) = .ok b := by
    intro b v hb hv k hk
    obtain ⟨lo, hi, h1, h2, -⟩ := (readOperandWord_ok_iff _ _ _).mp hv
    rcases (by omega : k = 0 ∨ k = 1 ∨ k = 2) with rfl | rfl | rfl
    exacts [⟨b, hb⟩, ⟨lo, h1⟩, ⟨hi, h2⟩]
  rcases fetch_ok_cases s i h with
    ⟨hb, rfl⟩ | ⟨hb, rfl⟩ | ⟨hb, rfl⟩ | ⟨hb, v, hv, rfl⟩ | ⟨hb, v, hv, rfl⟩ | ⟨hb, -, c, hc, rfl⟩ | ⟨hb, -, v, hv, rfl⟩ |
    ⟨hb, c, hc, rfl⟩ | ⟨hb, rfl⟩
  exacts [one _ hb, one _ hb, one _ hb, three _ _ hb hv, three _ _ hb hv, two _ _ hb hc, three _ _ hb hv, two _ _ hb hc,
    one _ hb]

/-- Everything a failed fetch can have been. -/
theorem fetch_error_cases (s : State) (f : FaultCause) (h : fetch loMem s = .error f) :
    readByte loMem s s.pc = .error f ∨
    (∃ opcode, readByte loMem s s.pc = .ok opcode ∧ decodeOpcode s.acc8 opcode = none ∧ f = .decodeFault opcode s.pc) ∨
    (∃ opcode form, readByte loMem s s.pc = .ok opcode ∧ decodeOpcode s.acc8 opcode = some form ∧
      ∃ k, 1 ≤ k ∧ k < form.size ∧ readByte loMem s (s.pc + k) = .error f ∧
        ∀ j < k, ∃ b, readByte loMem s (s.pc + j) = .ok b) := by
  unfold fetch at h
  cases hop : readByte loMem s s.pc with
  | error g => exact .inl (by simpa [hop] using h)
  | ok opcode =>
    rw [hop] at h
    cases hform : decodeOpcode s.acc8 opcode with
    | none =>
      simp only [hform, Except.error.injEq] at h
      exact .inr (.inl ⟨opcode, rfl, hform, h.symm⟩)
    | some form =>
      simp only [hform] at h
      refine .inr (.inr ⟨opcode, form, rfl, hform, ?_⟩)
      cases form with
      | none i => simp [readOperands] at h
      | byte build =>
        have hb : readOperandByte loMem s = .error f := by
          cases hv : readOperandByte loMem s <;> simp_all [readOperands, Except.map]
        refine ⟨1, by omega, by simp [OperandForm.size], (readOperandByte_error_iff _ _ _).mp hb, fun j hj => ?_⟩
        obtain rfl : j = 0 := by omega
        exact ⟨opcode, hop⟩
      | word build =>
        have hw : readOperandWord loMem s = .error f := by
          cases hv : readOperandWord loMem s <;> simp_all [readOperands, Except.map]
        rcases (readOperandWord_error_iff _ _ _).mp hw with h1 | ⟨⟨lo, hlo⟩, h2⟩
        · refine ⟨1, by omega, by simp [OperandForm.size], h1, fun j hj => ?_⟩
          obtain rfl : j = 0 := by omega
          exact ⟨opcode, hop⟩
        · refine ⟨2, by omega, by simp [OperandForm.size], h2, fun j hj => ?_⟩
          rcases (by omega : j = 0 ∨ j = 1) with rfl | rfl
          exacts [⟨opcode, hop⟩, ⟨lo, hlo⟩]

/-- What completing any instruction has in common: PC moves past it, and run, stop and the cartridge stay. -/
theorem exec_completes (i : Instr) (s : State) :
    ∃ t, exec i s = .next t ∧ t.pc = s.pc + i.size ∧ t.run = s.run ∧ t.stop = s.stop ∧ t.romSize = s.romSize ∧
      t.rom = s.rom := by
  cases i <;> exact ⟨_, rfl, rfl, rfl, rfl, rfl, rfl⟩

/-- Everything a step that answers a next state can have been. -/
theorem step_cases (s t : State) (h : step s = .next t) :
    s.run = .running ∧
      ((s.stop = true ∧ t = takeStop s) ∨
        (s.stop = false ∧ ∃ f, fetch loMem s = .error f ∧ t = takeFault f s) ∨
        (s.stop = false ∧ ∃ i, fetch loMem s = .ok i ∧ exec i s = .next t)) := by
  unfold step stepWith at h
  cases hr : s.run with
  | stopped => simp [hr] at h
  | faulted f => simp [hr] at h
  | running =>
    refine ⟨rfl, ?_⟩
    cases hs : s.stop with
    | true =>
      simp only [hr, hs, if_true, Host.Outcome.next.injEq] at h
      exact .inl ⟨rfl, h.symm⟩
    | false =>
      cases hf : fetch loMem s with
      | error f =>
        simp only [hr, hs, hf, Bool.false_eq_true, if_false, Host.Outcome.next.injEq] at h
        exact .inr (.inl ⟨rfl, f, rfl, h.symm⟩)
      | ok i =>
        simp only [hr, hs, hf, Bool.false_eq_true, if_false] at h
        exact .inr (.inr ⟨rfl, i, rfl, h⟩)

/-- A running core with no stop request steps by its fetch. -/
theorem step_running (s : State) (hr : s.run = .running) (hs : s.stop = false) :
    step s = match fetch loMem s with
      | .error f => .next (takeFault f s)
      | .ok i => exec i s := by
  cases hf : fetch loMem s <;> simp only [step, stepWith, hr, hs, hf, Bool.false_eq_true, if_false]

/-- Seating the width gives the width asked for and touches nothing but E and P. -/
theorem seatWidth_acc8 (acc8 : Bool) (s : State) :
    (seatWidth acc8 s).acc8 = acc8 ∧ seatWidth acc8 s = (s.setE (seatWidth acc8 s).e).setP (seatWidth acc8 s).p := by
  unfold seatWidth
  split_ifs with h1 h2
  · exact ⟨h1, rfl⟩
  · subst h2
    exact ⟨by simp [State.acc8, accIs8, accWidthBit, flag_setFlag], rfl⟩
  · obtain rfl : acc8 = false := by simpa using h2
    exact ⟨by simp [State.acc8, accIs8, accWidthBit, flag_setFlag], rfl⟩

end Sys2Proof.Machine
end

