-- ==== Sys2Proof/Laws/Run.lean ====
section
/-! SUPPORT. Runs of many steps, one step at a time, and the induction over them packaged once. -/

namespace Sys2Proof.Machine

theorem run_of_next {s u : State} (n : Nat) (h : step s = .next u) :
    Host.Core.run Sys2Proof.core (n + 1) s = Host.Core.run Sys2Proof.core n u := by
  have h' : Sys2Proof.core.step s = .next u := h
  exact (Host.Core.run.eq_2 Sys2Proof.core s n).trans (by rw [h'])

theorem run_of_fault {s : State} {r : Fault} (n : Nat) (h : step s = .fault r) :
    Host.Core.run Sys2Proof.core (n + 1) s = .fault r := by
  have h' : Sys2Proof.core.step s = .fault r := h
  exact (Host.Core.run.eq_2 Sys2Proof.core s n).trans (by rw [h'])

/-- No step refuses: every instruction has its meaning. -/
theorem step_not_refused (s : State) (r : Refusal) : step s ≠ .refused r := by
  intro h
  unfold step stepWith at h
  split at h
  · cases h
  · cases h
  · split at h
    · cases h
    · split at h
      · cases h
      · rename_i i _
        obtain ⟨t, ht, -⟩ := exec_completes i s
        rw [ht] at h
        cases h

/-- A run that answers a next state made a first step and then the rest. -/
theorem run_next_cases {n : Nat} {s t : State} (h : Host.Core.run Sys2Proof.core (n + 1) s = .next t) :
    ∃ u, step s = .next u ∧ Host.Core.run Sys2Proof.core n u = .next t := by
  cases hs : step s with
  | next u =>
    rw [run_of_next n hs] at h
    exact ⟨u, rfl, h⟩
  | fault r =>
    rw [run_of_fault n hs] at h
    cases h
  | refused r => exact absurd hs (step_not_refused s r)

/-- What every step keeps, every run keeps. -/
theorem run_induction {P : State → Prop} (keeps : ∀ s t, P s → step s = .next t → P t) (n : Nat) {s t : State}
    (hs : P s) (h : Host.Core.run Sys2Proof.core n s = .next t) : P t := by
  induction n generalizing s with
  | zero =>
    injection h with h
    exact h ▸ hs
  | succ n ih =>
    obtain ⟨u, hu, hrest⟩ := run_next_cases h
    exact ih (keeps s u hs hu) hrest

end Sys2Proof.Machine
end

