-- ==== Sys2Proof/Machine/Listing.lean ====
section
/-! DEFINITION. The written form of an instruction, as the spec's listings have it (rule R75; log 27). No step uses it. -/

namespace Sys2Proof

/-- One hexadecimal digit, of a number below 16. -/
def hexDigit (n : Nat) : Char :=
  if n < 10 then Char.ofNat (48 + n) else Char.ofNat (55 + n)

/-- The last `digits` hexadecimal digits of a number, the most significant first. -/
def hexDigits : Nat → Nat → List Char
  | 0, _ => []
  | digits + 1, n => hexDigits digits (n / 16) ++ [hexDigit (n % 16)]

/-- A byte or a word in the source's style, with the prefix `0x`. -/
def hexByte (b : Byte) : String := "0x" ++ String.ofList (hexDigits 2 b.toNat)
def hexWord (v : Word) : String := "0x" ++ String.ofList (hexDigits 4 v.toNat)

/-- Mnemonic in capitals, `#` before an immediate, a bare number for an absolute operand (rule R75). -/
def Instr.listing : Instr → String
  | .clc => "CLC"
  | .tcd => "TCD"
  | .sei => "SEI"
  | .sta addr => "STA " ++ hexWord addr
  | .stz addr => "STZ " ++ hexWord addr
  | .ldaImm8 imm => "LDA #" ++ hexByte imm
  | .ldaImm16 imm => "LDA #" ++ hexWord imm
  | .rep mask => "REP #" ++ hexByte mask
  | .xce => "XCE"

end Sys2Proof
end

