-- ==== Sys2Proof/Tests/Slice0.lean ====
section
/-! SUPPORT. Tests against spec/95_test_vectors.md (the vector's id stands in each name or comment), a smoke test of
WellFormed, decoding of words written out from the opcode table, and for each obligation with hypotheses a witness that meets
them, clause by clause. -/

namespace Sys2Proof.Tests

open Sys2Proof.Machine

/-- A running core with the given bytes at PC and every other ROM byte blank, as the vectors have it. -/
def core (romSize pc : Nat) (bytes : List Byte) (a dp : Word) (p : Byte) (e : Bool) : State where
  pc := pc
  a := a
  dp := dp
  p := p
  e := e
  run := .running
  stop := false
  romSize := romSize
  rom := Memory.putAll [] (pc - 0x8000) bytes
  outputs := []

/-- The next state of a step, if there is one. -/
def after (s : State) : Option State :=
  match step s with
  | .next t => some t
  | .fault _ => none
  | .refused _ => none

/-- The registers `PC A DP P E` after a step. -/
def regsAfter (s : State) : Option (Nat × Word × Word × Byte × Bool) :=
  (after s).map fun t => (t.pc, t.a, t.dp, t.p, t.e)

/-- The run-state after a step. -/
def runAfter (s : State) : Option RunState := (after s).map State.run

/-- The fetched instruction, if the fetch succeeds. -/
def fetched (s : State) : Option Instr := (fetch loMem s).toOption

/-! ### WellFormed smoke test: an ill-formed term for each check -/

theorem test_wellFormed_refuses_byte_form_at_width16 : (Instr.ldaImm8 0x56#8).wellFormed false = false := by decide
theorem test_wellFormed_refuses_word_form_at_width8 : (Instr.ldaImm16 0x1234#16).wellFormed true = false := by decide
theorem test_wellFormed_accepts_matching_forms :
    (Instr.ldaImm8 0x56#8).wellFormed true = true ∧ (Instr.ldaImm16 0x1234#16).wellFormed false = true := by decide

/-! ### Decoding words written out from the encodings of R66 and R70 -/

theorem test_decode_clc : decode true [0b00011000#8] = .ok (.clc, []) := by decide
theorem test_decode_tcd : decode true [0b01011011#8] = .ok (.tcd, []) := by decide
theorem test_decode_sei : decode true [0b01111000#8] = .ok (.sei, []) := by decide
theorem test_decode_xce : decode true [0b11111011#8] = .ok (.xce, []) := by decide
theorem test_decode_rep : decode true [0b11000010#8, 0b00110000#8] = .ok (.rep 0x30#8, []) := by decide
theorem test_decode_sta : decode true [0b10001101#8, 0b00000000#8, 0b00100001#8] = .ok (.sta 0x2100#16, []) := by decide
theorem test_decode_stz : decode true [0b10011100#8, 0b00000000#8, 0b01000010#8] = .ok (.stz 0x4200#16, []) := by decide
theorem test_decode_lda_byte : decode true [0b10101001#8, 0b01010110#8] = .ok (.ldaImm8 0x56#8, []) := by decide
theorem test_decode_lda_word :
    decode false [0b10101001#8, 0b00110100#8, 0b00010010#8] = .ok (.ldaImm16 0x1234#16, []) := by decide
theorem test_decode_rejects_by_name :
    decode true [] = .error .noBytes ∧ decode true [0xFF#8] = .error (.illegalOpcode 0xFF#8) ∧
    decode true [0xEA#8] = .error (.illegalOpcode 0xEA#8) ∧ decode false [0xA9#8, 0x12#8] = .error (.missingOperand 0xA9#8) := by
  decide
/-- R73: the two neighbours of each legal byte that are illegal by the spec's ranges. -/
theorem test_illegal_neighbours :
    [0x00#8, 0x17#8, 0x19#8, 0x5A#8, 0x5C#8, 0x77#8, 0x79#8, 0x8C#8, 0x8E#8, 0x9B#8, 0x9D#8, 0xA8#8, 0xAA#8, 0xC1#8,
      0xC3#8, 0xFA#8, 0xFC#8, 0xFF#8].all (fun b => (opcodeSize true b).isNone && (opcodeSize false b).isNone) = true := by
  decide
/-- Table words, bit 0 the lowest bit of the first byte: the three rows of more than one reading. -/
theorem test_decodeTableWord :
    decodeTableWord 8 0x18 = some .clc ∧ decodeTableWord 16 0x56A9 = some (.ldaImm8 0x56#8) ∧
    decodeTableWord 24 0x1234A9 = some (.ldaImm16 0x1234#16) ∧ decodeTableWord 24 0x21008D = some (.sta 0x2100#16) ∧
    decodeTableWord 8 0xFF = none := by decide
/-- R75's own examples. -/
theorem test_listing :
    (Instr.rep 0x30#8).listing = "REP #0x30" ∧ (Instr.ldaImm16 0x1234#16).listing = "LDA #0x1234" ∧
    (Instr.sta 0x2100#16).listing = "STA 0x2100" := by decide

/-! ### The step, one instruction at a time -/

theorem test_clc_V1 : regsAfter (core 0x8000 0x8000 [0x18#8] 0x1234#16 0x5678#16 0xFF#8 true) =
    some (0x8001, 0x1234#16, 0x5678#16, 0xFE#8, true) := by decide
theorem test_sei_V6 : regsAfter (core 0x8000 0x8000 [0x78#8] 0x1234#16 0x5678#16 0xFB#8 false) =
    some (0x8001, 0x1234#16, 0x5678#16, 0xFF#8, false) := by decide
theorem test_rep_V7 : regsAfter (core 0x8000 0x8000 [0xC2#8, 0x30#8] 0x1234#16 0x5678#16 0x35#8 false) =
    some (0x8002, 0x1234#16, 0x5678#16, 0x05#8, false) := by decide
theorem test_rep_V13 : runAfter (core 0x8000 0xFFFF [0xC2#8] 0x1234#16 0x5678#16 0xFF#8 false) =
    some (.faulted (.mappingFault 0x10000)) := by decide
theorem test_tcd_V23 : regsAfter (core 0x8000 0x8000 [0x5B#8] 0xAB00#16 0x1111#16 0x20#8 true) =
    some (0x8001, 0xAB00#16, 0xAB00#16, 0xA0#8, true) := by decide
theorem test_tcd_V24 : regsAfter (core 0x8000 0x8000 [0x5B#8] 0x0080#16 0x1111#16 0xA2#8 true) =
    some (0x8001, 0x0080#16, 0x0080#16, 0x20#8, true) := by decide
theorem test_lda_V34 : regsAfter (core 0x8000 0x8000 [0xA9#8, 0x00#8] 0x1234#16 0#16 0xA0#8 false) =
    some (0x8002, 0x1200#16, 0#16, 0x22#8, false) := by decide
theorem test_lda_V36 : regsAfter (core 0x8000 0x8000 [0xA9#8, 0x7F#8] 0xFF00#16 0#16 0x00#8 true) =
    some (0x8002, 0xFF7F#16, 0#16, 0x00#8, true) := by decide
theorem test_lda_V33 : regsAfter (core 0x8000 0x8000 [0xA9#8, 0x00#8, 0x80#8] 0#16 0#16 0x00#8 false) =
    some (0x8003, 0x8000#16, 0#16, 0x80#8, false) := by decide
theorem test_lda_V43 : regsAfter (core 0x7FFE 0xFFFC [0xA9#8, 0xFC#8] 0x1234#16 0#16 0x00#8 false) =
      some (0xFFFC, 0x1234#16, 0#16, 0x00#8, false) ∧
    runAfter (core 0x7FFE 0xFFFC [0xA9#8, 0xFC#8] 0x1234#16 0#16 0x00#8 false) =
      some (.faulted (.romBoundsFault 0xFFFE 0x7FFE)) := by decide
theorem test_sta_V51 : (after (core 0x8000 0x8000 [0x8D#8, 0x00#8, 0x80#8] 0x1234#16 0x5678#16 0x30#8 true)).map
      (fun t => (t.pc, t.outputs, Memory.byteAt t.rom 0)) =
    some (0x8003, [.unimplementedWrite 0x8D#8 0x8000 0x8000], 0x8D#8) := by decide
theorem test_sta_V52 : (after (core 0x8000 0xFFFE [0x8D#8, 0x00#8] 0x1234#16 0x5678#16 0#8 false)).map
      (fun t => (t.run, t.outputs)) =
    some (.faulted (.mappingFault 0x10000), [.mappingReport 0x01 0x0000]) := by decide
theorem test_stz_V54 : (after (core 0x8000 0x8000 [0x9C#8, 0x00#8, 0x42#8] 0xFFFF#16 0x1234#16 0xFF#8 false)).map
      (fun t => (t.pc, t.p, t.outputs)) =
    some (0x8003, 0xFF#8, [.unimplementedWrite 0x9C#8 0x8000 0x4200]) := by decide
theorem test_stz_V55 : runAfter (core 0x8000 0xFFFF [0x9C#8] 0#16 0#16 0#8 true) =
    some (.faulted (.mappingFault 0x10000)) := by decide
theorem test_xce_V62_V64 :
    regsAfter (core 0x8000 0x8000 [0xFB#8] 0x1234#16 0x5678#16 0xCE#8 true) =
      some (0x8001, 0x1234#16, 0x5678#16, 0xFF#8, false) ∧
    regsAfter (core 0x8000 0x8000 [0xFB#8] 0x1234#16 0x5678#16 0x3F#8 false) =
      some (0x8001, 0x1234#16, 0x5678#16, 0x2E#8, true) := by decide
theorem test_xce_V67_V69 :
    regsAfter (core 0x8000 0x8000 [0xFB#8] 0x1234#16 0x5678#16 0x00#8 false) =
      some (0x8001, 0x1234#16, 0x5678#16, 0x00#8, false) ∧
    regsAfter (core 0x8000 0x8000 [0xFB#8] 0x1234#16 0x5678#16 0x31#8 true) =
      some (0x8001, 0x1234#16, 0x5678#16, 0x31#8, true) := by decide

/-! ### Faults, stop, translation -/

theorem test_decode_fault_X3 : runAfter (core 0x8000 0x8000 [0xEA#8] 0x1234#16 0x5678#16 0xA5#8 false) =
    some (.faulted (.decodeFault 0xEA#8 0x8000)) := by decide
theorem test_bounds_fault_X8 : runAfter (core 0x8000 0x18000 [] 0x1234#16 0x5678#16 0xA5#8 false) =
    some (.faulted (.romBoundsFault 0x18000 0x10000)) := by decide
theorem test_stop_wins_X11 : runAfter (raiseStop (core 0x8000 0x7FFF [] 0x1234#16 0x5678#16 0xA5#8 false)) =
    some .stopped := by decide
theorem test_translation_T7_T14 :
    loMem 0x3FFFFF = some { region := .cartridge, off := 0x3F7FFF } ∧ loMem 0x1008000 = none ∧
    loMem 0x7FFF = none ∧ loMem 0x408000 = none := by decide
/-- F8, F9, F10. -/
theorem test_transfer_flags : setTransferFlags 16 0x7FFF#16 0xFF#8 = 0x7D#8 ∧
    setTransferFlags 16 0xFFFF#16 0x00#8 = 0x80#8 ∧ setTransferFlags 16 0x0100#16 0x02#8 = 0x00#8 ∧
    setTransferFlags 8 0xFF#8 0x7D#8 = 0xFD#8 := by decide
theorem test_little_endian_M6 :
    (memRead loMem (core 0x8000 0x8000 [0x34#8, 0x12#8, 0x00#8, 0x80#8, 0xFF#8] 0#16 0#16 0#8 false) 0x8003 2).toOption =
      some 0xFF80 := by decide
/-- The reset state is the blank cartridge's: its vector reads `0xFFFF` (log 2, log 3), and the first fetch is illegal. -/
theorem test_reset_first_step : State.reset.pc = 0xFFFF ∧
    runAfter State.reset = some (.faulted (.decodeFault 0xFF#8 0xFFFF)) := by decide
/-- A placed instruction is the first one to run after reset (log 19). -/
theorem test_placed_after_reset :
    fetched (State.reset.withFetchWord 24 0x1234A9) = some (.ldaImm16 0x1234#16) ∧
    fetched (State.reset.withFetchWord 16 0x56A9) = some (.ldaImm8 0x56#8) ∧
    fetched (State.reset.withFetchWord 8 0xFB) = some .xce := by decide

/-! ### Witnesses: concrete data that meet each obligation's hypotheses, clause by clause -/

/-- A running core at the start of the window, native mode, 16-bit accumulator. -/
def native (bytes : List Byte) : State := core 0x8000 0x8000 bytes 0x1234#16 0x5678#16 0x00#8 false

/-- The same with an 8-bit accumulator. -/
def narrow (bytes : List Byte) : State := core 0x8000 0x8000 bytes 0x1234#16 0x5678#16 0x20#8 false

/-- A running core at the last byte, or the last but one, of bank 0. -/
def lastByte (bytes : List Byte) (p : Byte) : State := core 0x8000 0xFFFF bytes 0x1234#16 0x5678#16 p false
def lastButOne (bytes : List Byte) (p : Byte) : State := core 0x8000 0xFFFE bytes 0x1234#16 0x5678#16 p false

theorem witness_DecodeOfEncode : (Instr.ldaImm16 0xFFFF#16).wellFormed false = true ∧ Instr.xce.wellFormed true = true := by
  decide
theorem witness_EncodeOfDecode : decode true [0xA9#8, 0x00#8, 0x18#8] = .ok (.ldaImm8 0x00#8, [0x18#8]) := by decide
/-- A size at each width and a byte without one, at opcode bytes that are read; and `A9 00 18` at both widths. -/
theorem witness_SizeFollowsOpcodeAndWidth :
    (readByte loMem (native [0xA9#8, 0x34#8, 0x12#8]) 0x8000 = .ok 0xA9#8 ∧
      fetch loMem (native [0xA9#8, 0x34#8, 0x12#8]) = .ok (.ldaImm16 0x1234#16)) ∧
    (readByte loMem (narrow [0xA9#8, 0x56#8]) 0x8000 = .ok 0xA9#8 ∧
      fetch loMem (narrow [0xA9#8, 0x56#8]) = .ok (.ldaImm8 0x56#8)) ∧
    (readByte loMem (native [0xEA#8]) 0x8000 = .ok 0xEA#8 ∧ opcodeSize false 0xEA#8 = none ∧
      (native [0xEA#8]).run = .running ∧ (native [0xEA#8]).stop = false) ∧
    (readBytes loMem (native [0xA9#8, 0x00#8, 0x18#8]) 0x8000 3 = .ok [0xA9#8, 0x00#8, 0x18#8] ∧
      (native []).e = false ∧ flag (native []).p 5 = false) ∧
    readBytes loMem (narrow [0xA9#8, 0x00#8, 0x18#8]) 0x8000 3 = .ok [0xA9#8, 0x00#8, 0x18#8] ∧
      flag (narrow []).p 5 = true := by decide
theorem witness_LoMemMapsWindows :
    (0xFFFF ≤ 0xFFFF ∧ 0x3F ≤ 0x3F ∧ 0x8000 ≤ 0xFFFF) ∧ (0xFFFF ≤ 0xFFFF ∧ 0x3F < 0x40) ∧ 0x7FFF < 0x8000 := by decide
theorem witness_LoMemImage : loMem 0x8000 = some { region := .cartridge, off := 0 } ∧
    loMem 0x3FFFFF = some { region := .cartridge, off := 0x3F7FFF } := by decide
theorem witness_ReadByteAnswers :
    (readByte loMem (native [0x18#8]) 0x8000).toOption = some 0x18#8 ∧
    readByte loMem (native []) 0x18000 = .error (.romBoundsFault 0x18000 0x10000) ∧
    readByte loMem (native []) 0x7FFF = .error (.mappingFault 0x7FFF) := by decide
theorem witness_MultiByteReadIsLittleEndian :
    memRead loMem (native [0x34#8, 0x12#8]) 0x8000 2 = .ok 0x1234 ∧
    memRead loMem (native []) 0xFFFF 2 = .error (.mappingFault 0x10000) := by decide
theorem witness_AddressReadIsInBankZero : memReadAddr loMem (native [0x34#8, 0x12#8]) 0x8000 2 = .ok 0x1234 := by decide
theorem witness_TransferFlagsByWidth :
    (8 = 8 ∨ 8 = 16) ∧ (16 = 8 ∨ 16 = 16) ∧ fetch loMem (narrow [0xA9#8, 0x56#8]) = .ok (.ldaImm8 0x56#8) ∧
    fetch loMem (native [0xA9#8, 0x34#8, 0x12#8]) = .ok (.ldaImm16 0x1234#16) ∧
    exec .tcd (native []) = .next (((native []).setDp 0x1234#16).setP 0x00#8 |>.setPc 0x8001) :=
  ⟨by decide, by decide, by decide, by decide, rfl⟩
theorem witness_WidthDecidesLdaForm : fetch loMem (narrow [0xA9#8, 0xFF#8]) = .ok (.ldaImm8 0xFF#8) ∧
    fetch loMem (native [0xA9#8, 0xFF#8, 0x00#8]) = .ok (.ldaImm16 0x00FF#16) := by decide
theorem witness_RepReadsItsMask :
    ((native [0xC2#8, 0x30#8]).run = .running ∧ (native [0xC2#8, 0x30#8]).stop = false ∧
      readByte loMem (native [0xC2#8, 0x30#8]) 0x8000 = .ok 0xC2#8 ∧
      readByte loMem (native [0xC2#8, 0x30#8]) 0x8001 = .ok 0x30#8) ∧
    readByte loMem (lastByte [0xC2#8] 0#8) 0xFFFF = .ok 0xC2#8 ∧
    readByte loMem (lastByte [0xC2#8] 0#8) 0x10000 = .error (.mappingFault 0x10000) := by decide
theorem witness_LdaForms : ((narrow []).e = true ∨ flag (narrow []).p 5 = true) ∧
    (native []).e = false ∧ flag (native []).p 5 = false := by decide
theorem witness_LdaReadsItsOperandAtWidth :
    (readByte loMem (narrow [0xA9#8, 0x56#8]) 0x8000 = .ok 0xA9#8 ∧
      readByte loMem (narrow [0xA9#8, 0x56#8]) 0x8001 = .ok 0x56#8) ∧
    (flag (lastByte [0xA9#8] 0x20#8).p 5 = true ∧ readByte loMem (lastByte [0xA9#8] 0x20#8) 0xFFFF = .ok 0xA9#8 ∧
      readByte loMem (lastByte [0xA9#8] 0x20#8) 0x10000 = .error (.mappingFault 0x10000)) ∧
    (readByte loMem (native [0xA9#8, 0x34#8, 0x12#8]) 0x8001 = .ok 0x34#8 ∧
      readByte loMem (native [0xA9#8, 0x34#8, 0x12#8]) 0x8002 = .ok 0x12#8) ∧
    (flag (lastByte [0xA9#8] 0x00#8).p 5 = false ∧
      readByte loMem (lastByte [0xA9#8] 0x00#8) 0x10000 = .error (.mappingFault 0x10000)) ∧
    readByte loMem (lastButOne [0xA9#8, 0x12#8] 0x00#8) 0xFFFE = .ok 0xA9#8 ∧
    readByte loMem (lastButOne [0xA9#8, 0x12#8] 0x00#8) 0xFFFF = .ok 0x12#8 := by decide
theorem witness_StoresReadTheirOperands :
    (readByte loMem (native [0x8D#8, 0x00#8, 0x21#8]) 0x8000 = .ok 0x8D#8 ∧
      readByte loMem (native [0x8D#8, 0x00#8, 0x21#8]) 0x8001 = .ok 0x00#8 ∧
      readByte loMem (native [0x8D#8, 0x00#8, 0x21#8]) 0x8002 = .ok 0x21#8) ∧
    (readByte loMem (lastByte [0x9C#8] 0#8) 0xFFFF = .ok 0x9C#8 ∧
      readByte loMem (lastByte [0x9C#8] 0#8) 0x10000 = .error (.mappingFault 0x10000)) ∧
    readByte loMem (lastButOne [0x8D#8, 0x00#8] 0#8) 0xFFFE = .ok 0x8D#8 ∧
    readByte loMem (lastButOne [0x8D#8, 0x00#8] 0#8) 0xFFFF = .ok 0x00#8 := by decide
/-- The four rows of R98's table are met, and XCE twice has its two steps. -/
theorem witness_Xce :
    ((core 0x8000 0x8000 [0xFB#8] 0#16 0#16 0x04#8 true).e = true ∧ flag 0x04#8 0 = false) ∧
    ((core 0x8000 0x8000 [0xFB#8] 0#16 0#16 0x31#8 false).e = false ∧ flag 0x31#8 0 = true) ∧
    (true = flag 0x01#8 0) ∧ (false = flag 0x00#8 0) := by decide
/-- Every state has its two steps; the starts of the three last clauses stand in `witness_Xce`. -/
theorem witness_XceTwice (s : State) : ∃ t u, exec .xce s = .next t ∧ exec .xce t = .next u := ⟨_, _, rfl, rfl⟩
/-- A step that completes, a step that stops, a step that faults. -/
theorem witness_steps : (after (native [0x18#8])).isSome = true ∧ (after (raiseStop (native [0x18#8]))).isSome = true ∧
    (after (native [0xFF#8])).isSome = true ∧ runAfter (native [0x18#8]) = some .running := by decide
theorem witness_exec : ∃ t, exec .clc (native []) = .next t ∧ mayWriteA .clc = false ∧ Instr.clc ≠ .tcd ∧
    Instr.clc ≠ .xce ∧ mayWriteFlag 7 .clc = false := ⟨_, rfl, by decide⟩
theorem witness_run : ∃ t, Host.Core.run Sys2Proof.core 1 (native [0x18#8]) = .next t ∧ t.run = .running :=
  ⟨(native [0x18#8]).setPc 0x8001, rfl, rfl⟩
theorem witness_FlagsThatCannotBeSet : flag 0x00#8 3 = false ∧ flag 0x00#8 6 = false ∧
    (after (core 0x8000 0x8000 [0xFB#8] 0#16 0#16 0x00#8 true)).map (fun t => flag t.p 0) = some true := by decide
theorem witness_UnreadStateHasNoInfluence :
    (core 0x8000 0x8000 [0x18#8] 0#16 0x1111#16 0x00#8 false).agreesOnRead
      (core 0x8000 0x8000 [0x18#8] 0#16 0x2222#16 0xDE#8 false) ∧
    (∃ t, Host.Core.run Sys2Proof.core 1 (native [0x18#8]) = .next t) ∧
    Host.Core.run Sys2Proof.core 1 ((native []).setRun .stopped) = .fault .coreStopped :=
  ⟨by simp [State.agreesOnRead, core, flag], ⟨_, rfl⟩, rfl⟩
theorem witness_StepReadsOnlyItsInstruction :
    ∀ a, (native []).pc ≤ a → a ≤ (native []).pc + 2 → loMem a = (fun x => if x = 0 then none else loMem x) a := by
  intro a h _
  have h0 : a ≠ 0 := by
    rintro rfl
    exact absurd h (by decide)
  simp [h0]
theorem witness_StepRunsDecodedInstruction :
    readBytes loMem (native [0x8D#8, 0x00#8, 0x21#8]) 0x8000 3 = .ok [0x8D#8, 0x00#8, 0x21#8] ∧
    decode (native []).acc8 [0x8D#8, 0x00#8, 0x21#8] = .ok (.sta 0x2100#16, []) := by decide
theorem witness_ChecksComeInOrder :
    (raiseStop (native [])).stop = true ∧ loMem 0x7FFF = none ∧
    (loMem 0x18000 = some { region := .cartridge, off := 0x10000 } ∧ (native []).romSize ≤ 0x10000) ∧
    (readByte loMem (native []) 0x8000 = .ok 0xFF#8 ∧ opcodeSize false 0xFF#8 = none) ∧
    (opcodeSize false 0xC2#8 = some 2 ∧ readByte loMem (lastByte [0xC2#8] 0#8) 0xFFFF = .ok 0xC2#8 ∧
      loMem 0x10000 = none) ∧
    readByte loMem (core 0x7FFE 0xFFFD [0xC2#8] 0#16 0#16 0#8 false) 0xFFFD = .ok 0xC2#8 ∧
    loMem 0xFFFE = some { region := .cartridge, off := 0x7FFE } := by decide
theorem witness_IllegalOpcodesFault :
    readByte loMem (native [0xEA#8]) 0x8000 = .ok 0xEA#8 ∧
    runAfter (native [0xEA#8]) = some (.faulted (.decodeFault 0xEA#8 0x8000)) := by decide
theorem witness_OnlyEndedCoresAreStuck : ((native []).setRun .stopped).run = .stopped ∧
    ((native []).setRun (.faulted (.mappingFault 0))).run = .faulted (.mappingFault 0) ∧ (native []).run = .running := by decide
theorem witness_BankEndFaults :
    readByte loMem (lastByte [0x8D#8] 0#8) 0xFFFF = .ok 0x8D#8 ∧ opcodeSize false 0x8D#8 = some 3 ∧
    0x10000 < 0xFFFF % 0x10000 + 3 ∧ ∀ j, 0xFFFF % 0x10000 + j < 0x10000 →
      ∃ b, readByte loMem (lastByte [0x8D#8] 0#8) (0xFFFF + j) = .ok b := by
  refine ⟨by decide, by decide, by decide, fun j hj => ?_⟩
  obtain rfl : j = 0 := by omega
  exact ⟨0x8D#8, by decide⟩
theorem witness_StepKeepsInvariant : (native [0x18#8]).Inv ∧ (after (native [0x18#8])).isSome = true :=
  ⟨⟨by decide, by decide, by decide, trivial, trivial⟩, by decide⟩

/-- The shortest file that powers on, with the given reset vector bytes. -/
def shortFile (lo hi : Byte) : List Byte := List.replicate 0x7FFC 0xFF#8 ++ [lo, hi]

theorem shortFile_length (lo hi : Byte) : (shortFile lo hi).length = 0x7FFE := by
  rw [shortFile, List.length_append, List.length_replicate]
  rfl

/-- The hypotheses of the reset statements, for every vector: the last legal length, and one byte less gives no state. -/
theorem witness_powerOn (v : ResetValues) (lo hi : Byte) :
    (∃ s, State.powerOn v (shortFile lo hi) = some s) ∧ (shortFile lo hi)[0x7FFC]? = some lo ∧
      (shortFile lo hi)[0x7FFD]? = some hi ∧ 0x7FFE ≤ (shortFile lo hi).length ∧ (shortFile lo hi).tail.length < 0x7FFE := by
  refine ⟨⟨_, (powerOn_some_iff _ _ _).mpr ⟨le_of_eq (shortFile_length lo hi).symm, rfl⟩⟩, ?_, ?_, ?_, ?_⟩
  · rw [shortFile, List.getElem?_append_right (by rw [List.length_replicate]), List.length_replicate]
    rfl
  · rw [shortFile, List.getElem?_append_right (by rw [List.length_replicate]; decide), List.length_replicate]
    rfl
  · rw [shortFile_length]
  · rw [List.length_tail, shortFile_length]
    decide

/-- The three clauses of the first fetch, at the boundaries of PC and of the file's length. -/
theorem witness_FirstFetchNeedsAGoodVector :
    0x7FFF < 0x8000 ∧ (0x8000 ≤ 0xFFFE ∧ 0x7FFE ≤ 0xFFFE - 0x8000) ∧ (0x8000 ≤ 0xFFFD ∧ 0xFFFD - 0x8000 < 0x7FFE) := by
  decide
theorem witness_PlacedInstructionRuns : State.reset.romWf = true ∧ decodeTableWord 24 0x21008D = some (.sta 0x2100#16) := by
  decide

end Sys2Proof.Tests
end

section
/-! The memory family: what LoMem answers at an address given by its bank and its offset (rules R44, R46). -/

namespace Sys2Proof.Machine

/-- Rule R44: from offset 0x8000 on, the banks up to 0x3F map to the cartridge. -/
theorem loMem_bank_offset_mapped {b o : Nat} (ho : o ≤ 0xFFFF) (hb : b ≤ 0x3F) (hlow : 0x8000 ≤ o) :
    loMem (b * 0x10000 + o) = some { region := .cartridge, off := b * 0x10000 + o - 0x8000 } :=
  (loMem_some_iff _ _).mpr ⟨by omega, by omega, rfl⟩

/-- Rule R44: the banks above 0x3F and the offsets below 0x8000 are unmapped, and no other address is. -/
theorem loMem_bank_offset_none_iff {b o : Nat} (ho : o ≤ 0xFFFF) :
    loMem (b * 0x10000 + o) = none ↔ 0x3F < b ∨ o < 0x8000 := by
  rw [loMem_none_iff]
  omega

/-- Rule R46: whatever the translation unit, a read at an address without translation faults with that address. -/
theorem readByte_unmapped {model : Model} {a : Nat} (h : model a = none) (s : State) :
    readByte model s a = .error (.mappingFault a) := by
  rw [readByte, h]

/-- Settles O5: an address is a bank and an offset of at most 0xFFFF, so the two clauses are the mapped and the unmapped
case of LoMem, and the read's fault follows from the unmapped one. -/
theorem loMemMapsWindows : Obligations.LoMemMapsWindows := by
  intro b o ho
  refine ⟨loMem_bank_offset_mapped ho, fun hout => ?_⟩
  have hnone : loMem (b * 0x10000 + o) = none := (loMem_bank_offset_none_iff ho).mpr hout
  exact ⟨hnone, readByte_unmapped hnone⟩

end Sys2Proof.Machine
end

section
/-! The encoding family. `decode` and `fetch` are each characterised by `encode`: both answer an instruction exactly when it
exists at the width and its encoded bytes are the ones at hand (rules R65 to R70). -/

namespace Sys2Proof

/-- What each operand form builds from the bytes behind the opcode byte (rules R66, R67). -/
inductive OperandForm.Fills : OperandForm → Instr → List Byte → Prop where
  | none (i : Instr) : Fills (.none i) i []
  | byte (build : Byte → Instr) (b : Byte) : Fills (.byte build) (build b) [b]
  | word (build : Word → Instr) (v : Word) : Fills (.word build) (build v) (wordBytes v)

/-- The two bytes read for a word are the bytes the word is stored as (rule R52). -/
theorem wordBytes_append (hi lo : Byte) : wordBytes (hi ++ lo) = [lo, hi] := by
  rw [wordBytes, Machine.low_of_append, Machine.high_of_append]

/-- The decoder splits off the opcode byte and as many operand bytes as the form of that byte takes. -/
theorem decode_ok_iff_fills (acc8 : Bool) (bs rest : List Byte) (i : Instr) :
    decode acc8 bs = .ok (i, rest) ↔ ∃ opcode operand form, decodeOpcode acc8 opcode = some form ∧
      form.Fills i operand ∧ bs = opcode :: operand ++ rest := by
  constructor
  · intro h
    unfold decode at h
    split at h
    · cases h
    · split at h
      · cases h
      · next hform =>
        cases h
        exact ⟨_, _, _, hform, .none _, rfl⟩
      · next hform =>
        cases h
        exact ⟨_, _, _, hform, .byte _ _, by rw [Machine.combineLE_single]; rfl⟩
      · next hform =>
        cases h
        rw [Machine.combineLE_pair]
        exact ⟨_, _, _, hform, .word _ _, by rw [wordBytes_append]; rfl⟩
      · cases h
  · rintro ⟨opcode, operand, form, hform, hfills, rfl⟩
    cases hfills with
    | none i => simp [decode, hform]
    | byte build b => simp [decode, hform, Machine.combineLE_single]
    | word build v => simp [decode, hform, wordBytes, Machine.combineLE_pair, Machine.append_halves]

/-- The opcode table read forwards and backwards: the row of an opcode byte builds exactly the instructions that exist at
the width and whose encoding begins with that byte (rules R70, R72). -/
theorem decodeOpcode_fills_iff (acc8 : Bool) (opcode : Byte) (operand : List Byte) (i : Instr) :
    (∃ form, decodeOpcode acc8 opcode = some form ∧ form.Fills i operand) ↔
      i.wellFormed acc8 = true ∧ encode i = opcode :: operand := by
  constructor
  · rintro ⟨form, hform, hfills⟩
    rcases decodeOpcode_some acc8 opcode form hform with
      ⟨rfl, rfl⟩ | ⟨rfl, rfl⟩ | ⟨rfl, rfl⟩ | ⟨rfl, rfl⟩ | ⟨rfl, rfl⟩ | ⟨rfl, rfl, rfl⟩ | ⟨rfl, rfl, rfl⟩ | ⟨rfl, rfl⟩ |
        ⟨rfl, rfl⟩ <;>
      cases hfills <;> exact ⟨rfl, rfl⟩
  · rintro ⟨hwf, henc⟩
    cases i <;> cases henc
    · exact ⟨_, decodeOpcode_clc acc8, .none _⟩
    · exact ⟨_, decodeOpcode_tcd acc8, .none _⟩
    · exact ⟨_, decodeOpcode_sei acc8, .none _⟩
    · exact ⟨_, decodeOpcode_sta acc8, .word _ _⟩
    · exact ⟨_, decodeOpcode_stz acc8, .word _ _⟩
    · obtain rfl : acc8 = true := hwf
      exact ⟨_, decodeOpcode_ldaByte, .byte _ _⟩
    · obtain rfl : acc8 = false := by simpa [Instr.wellFormed] using hwf
      exact ⟨_, decodeOpcode_ldaWord, .word _ _⟩
    · exact ⟨_, decodeOpcode_rep acc8, .byte _ _⟩
    · exact ⟨_, decodeOpcode_xce acc8, .none _⟩

theorem encode_ne_nil (i : Instr) : encode i ≠ [] := by
  cases i <;> exact List.cons_ne_nil _ _

/-- The decoder answers an instruction exactly when it exists at the width and its encoding stands at the head. -/
theorem decode_ok_iff (acc8 : Bool) (bs rest : List Byte) (i : Instr) :
    decode acc8 bs = .ok (i, rest) ↔ i.wellFormed acc8 = true ∧ bs = encode i ++ rest := by
  rw [decode_ok_iff_fills]
  constructor
  · rintro ⟨opcode, operand, form, hform, hfills, rfl⟩
    obtain ⟨hwf, henc⟩ := (decodeOpcode_fills_iff acc8 opcode operand i).mp ⟨form, hform, hfills⟩
    exact ⟨hwf, by rw [henc]⟩
  · rintro ⟨hwf, rfl⟩
    obtain ⟨opcode, operand, henc⟩ := List.exists_cons_of_ne_nil (encode_ne_nil i)
    obtain ⟨form, hform, hfills⟩ := (decodeOpcode_fills_iff acc8 opcode operand i).mpr ⟨hwf, henc⟩
    exact ⟨opcode, operand, form, hform, hfills, by rw [henc]⟩

/-- Settles O1: the encoding at the head is all the decoder asks of a well-formed instruction. -/
theorem decodeOfEncode : Obligations.DecodeOfEncode :=
  fun i acc8 rest hwf => (decode_ok_iff acc8 (encode i ++ rest) rest i).mpr ⟨hwf, rfl⟩

/-- Settles O2: what the decoder answers is well-formed, and its encoding stood at the head. -/
theorem encodeOfDecode : Obligations.EncodeOfDecode := by
  intro acc8 bs rest i h
  obtain ⟨hwf, hbs⟩ := (decode_ok_iff acc8 bs rest i).mp h
  exact ⟨hbs, hwf⟩

/-- Settles O3: each word of the table is the encoding of its instruction, with nothing behind it. -/
theorem specWordsDecode : Obligations.SpecWordsDecode := by
  refine ⟨?_, ?_, ?_, ?_, ?_, ?_, ?_, ?_, ?_⟩ <;> exact (decode_ok_iff _ _ _ _).mpr ⟨rfl, rfl⟩

/-! ### The size of an instruction -/

theorem encodedLength (i : Instr) : Laws.EncodedLength.Statement i := by
  cases i with
  | clc => exact Laws.EncodedLength.clc
  | tcd => exact Laws.EncodedLength.tcd
  | sei => exact Laws.EncodedLength.sei
  | sta addr => exact Laws.EncodedLength.sta addr
  | stz addr => exact Laws.EncodedLength.stz addr
  | ldaImm8 imm => exact Laws.EncodedLength.ldaImm8 imm
  | ldaImm16 imm => exact Laws.EncodedLength.ldaImm16 imm
  | rep mask => exact Laws.EncodedLength.rep mask
  | xce => exact Laws.EncodedLength.xce

/-- The first byte of an encoding has the encoding's length as its size (rule R68). -/
theorem opcodeSize_of_encode {acc8 : Bool} {opcode : Byte} {operand : List Byte} {i : Instr}
    (hwf : i.wellFormed acc8 = true) (henc : encode i = opcode :: operand) :
    opcodeSize acc8 opcode = some (encode i).length := by
  obtain ⟨hlen, -, -, hsize⟩ := encodedLength i
  rw [hlen, ← hsize acc8 hwf, henc]
  rfl

theorem opcodeSize_none_iff (acc8 : Bool) (opcode : Byte) :
    opcodeSize acc8 opcode = none ↔ decodeOpcode acc8 opcode = none :=
  Option.map_eq_none_iff

/-- Rule R68's table. -/
theorem opcodeSize_table (acc8 : Bool) (opcode : Byte) : opcodeSize acc8 opcode =
    if opcode ∈ [0x18#8, 0x5B#8, 0x78#8, 0xFB#8] then some 1
    else if opcode = 0xC2#8 then some 2
    else if opcode ∈ [0x8D#8, 0x9C#8] then some 3
    else if opcode = 0xA9#8 then (if acc8 then some 2 else some 3)
    else none := by
  by_cases hop : opcode ∈ opcodeBytes
  · simp only [opcodeBytes, List.mem_cons, List.not_mem_nil, or_false] at hop
    rcases hop with rfl | rfl | rfl | rfl | rfl | rfl | rfl | rfl <;> cases acc8 <;> rfl
  · rw [(opcodeSize_none_iff acc8 opcode).mpr ((decodeOpcode_none_iff acc8 opcode).mpr hop)]
    simp only [opcodeBytes, List.mem_cons, List.not_mem_nil, or_false, not_or] at hop
    simp [hop]

end Sys2Proof

namespace Sys2Proof.Machine

/-! ### The fetch as a decode of the bytes at PC -/

theorem readBytes_cons_ok_iff (model : Model) (s : State) (a n : Nat) (b : Byte) (bs : List Byte) :
    readBytes model s a (n + 1) = .ok (b :: bs) ↔ readByte model s a = .ok b ∧ readBytes model s (a + 1) n = .ok bs := by
  cases hb : readByte model s a with
  | error f => simp [readBytes, hb]
  | ok c => cases hr : readBytes model s (a + 1) n <;> simp [readBytes, hb, hr]

theorem readBytes_one_ok_iff (model : Model) (s : State) (a : Nat) (b : Byte) :
    readBytes model s a 1 = .ok [b] ↔ readByte model s a = .ok b := by
  rw [readBytes_cons_ok_iff, readBytes, and_iff_left rfl]

theorem readBytes_two_ok_iff (model : Model) (s : State) (a : Nat) (b c : Byte) :
    readBytes model s a 2 = .ok [b, c] ↔ readByte model s a = .ok b ∧ readByte model s (a + 1) = .ok c := by
  rw [readBytes_cons_ok_iff, readBytes_one_ok_iff]

/-- The operand reads answer what the form builds from the bytes that stand from PC + 1 on (rule R67; log 18). -/
theorem readOperands_ok_iff_fills (model : Model) (s : State) (form : OperandForm) (i : Instr) :
    readOperands model s form = .ok i ↔
      ∃ operand, form.Fills i operand ∧ readBytes model s (s.pc + 1) operand.length = .ok operand := by
  constructor
  · intro h
    cases form with
    | none j =>
      cases h
      exact ⟨[], .none _, rfl⟩
    | byte build =>
      cases hb : readOperandByte model s with
      | error f => simp [readOperands, hb, Except.map] at h
      | ok b =>
        obtain rfl : build b = i := by simpa [readOperands, hb, Except.map] using h
        exact ⟨[b], .byte _ _, (readBytes_one_ok_iff ..).mpr ((readOperandByte_ok_iff model s b).mp hb)⟩
    | word build =>
      cases hv : readOperandWord model s with
      | error f => simp [readOperands, hv, Except.map] at h
      | ok v =>
        obtain rfl : build v = i := by simpa [readOperands, hv, Except.map] using h
        obtain ⟨lo, hi, hlo, hhi, rfl⟩ := (readOperandWord_ok_iff model s v).mp hv
        refine ⟨_, .word _ _, ?_⟩
        rw [wordBytes_append]
        exact (readBytes_two_ok_iff ..).mpr ⟨hlo, hhi⟩
  · rintro ⟨operand, hfills, hread⟩
    cases hfills with
    | none i => rfl
    | byte build b =>
      have hb := (readOperandByte_ok_iff model s b).mpr ((readBytes_one_ok_iff ..).mp hread)
      rw [readOperands, hb, Except.map]
    | word build v =>
      obtain ⟨hlo, hhi⟩ := (readBytes_two_ok_iff ..).mp hread
      have hv := (readOperandWord_ok_iff model s v).mpr ⟨_, _, hlo, hhi, (append_halves v).symm⟩
      rw [readOperands, hv, Except.map]

theorem fetch_of_opcode {model : Model} {s : State} {opcode : Byte} {form : OperandForm}
    (hop : readByte model s s.pc = .ok opcode) (hform : decodeOpcode s.acc8 opcode = some form) :
    fetch model s = readOperands model s form := by
  simp [fetch, hop, hform]

theorem fetch_illegal_opcode {model : Model} {s : State} {opcode : Byte}
    (hop : readByte model s s.pc = .ok opcode) (hform : decodeOpcode s.acc8 opcode = none) :
    fetch model s = .error (.decodeFault opcode s.pc) := by
  simp [fetch, hop, hform]

/-- Every fetched instruction came from an opcode byte of the table. -/
theorem opcode_of_fetch_ok {model : Model} {s : State} {i : Instr} (h : fetch model s = .ok i) :
    ∃ opcode form, readByte model s s.pc = .ok opcode ∧ decodeOpcode s.acc8 opcode = some form := by
  cases hop : readByte model s s.pc with
  | error f => simp [fetch, hop] at h
  | ok opcode =>
    cases hform : decodeOpcode s.acc8 opcode with
    | none => simp [fetch_illegal_opcode hop hform] at h
    | some form => exact ⟨opcode, form, rfl, hform⟩

/-- Every state fetches exactly the instructions that exist at its width and whose encoding stands at PC. -/
theorem fetch_ok_iff (model : Model) (s : State) (i : Instr) :
    fetch model s = .ok i ↔
      i.wellFormed s.acc8 = true ∧ readBytes model s s.pc (encode i).length = .ok (encode i) := by
  constructor
  · intro h
    obtain ⟨opcode, form, hop, hform⟩ := opcode_of_fetch_ok h
    rw [fetch_of_opcode hop hform] at h
    obtain ⟨operand, hfills, hread⟩ := (readOperands_ok_iff_fills model s form i).mp h
    obtain ⟨hwf, henc⟩ := (decodeOpcode_fills_iff s.acc8 opcode operand i).mp ⟨form, hform, hfills⟩
    rw [henc]
    exact ⟨hwf, (readBytes_cons_ok_iff ..).mpr ⟨hop, hread⟩⟩
  · rintro ⟨hwf, hread⟩
    obtain ⟨opcode, operand, henc⟩ := List.exists_cons_of_ne_nil (encode_ne_nil i)
    obtain ⟨form, hform, hfills⟩ := (decodeOpcode_fills_iff s.acc8 opcode operand i).mpr ⟨hwf, henc⟩
    rw [henc] at hread
    obtain ⟨hop, hrest⟩ := (readBytes_cons_ok_iff ..).mp hread
    rw [fetch_of_opcode hop hform]
    exact (readOperands_ok_iff_fills model s form i).mpr ⟨operand, hfills, hrest⟩

/-- A state fetches by the size that its opcode byte has at its own width (rule R68). -/
theorem opcodeSize_of_fetch_ok {model : Model} {s : State} {opcode : Byte} {i : Instr}
    (hop : readByte model s s.pc = .ok opcode) (h : fetch model s = .ok i) :
    opcodeSize s.acc8 opcode = some (encode i).length := by
  obtain ⟨hwf, hread⟩ := (fetch_ok_iff model s i).mp h
  obtain ⟨head, operand, henc⟩ := List.exists_cons_of_ne_nil (encode_ne_nil i)
  rw [henc] at hread
  obtain ⟨hhead, -⟩ := (readBytes_cons_ok_iff ..).mp hread
  obtain rfl : opcode = head := Except.ok.inj (hop.symm.trans hhead)
  exact opcodeSize_of_encode hwf henc

/-- A running core with no stop request takes a byte without size as a decode fault (rule R68; log 14, log 15). -/
theorem step_illegal_opcode {s : State} {opcode : Byte} (hop : readByte loMem s s.pc = .ok opcode)
    (hform : decodeOpcode s.acc8 opcode = none) (hrun : s.run = .running) (hstop : s.stop = false) :
    step s = .next (takeFault (.decodeFault opcode s.pc) s) := by
  rw [step_running s hrun hstop, fetch_illegal_opcode hop hform]

theorem acc8_eq_false {s : State} (h : s.e = false ∧ flag s.p 5 = false) : s.acc8 = false :=
  Bool.or_eq_false_iff.mpr h

theorem acc8_eq_true {s : State} (h : s.e = true ∨ flag s.p 5 = true) : s.acc8 = true :=
  (Bool.or_eq_true ..).mpr h

/-! ### The two readings of `A9 00 18` (rule R68) -/

theorem fetch_lda_word_1800 {s : State} (hread : readBytes loMem s s.pc 3 = .ok [0xA9#8, 0x00#8, 0x18#8])
    (hacc : s.acc8 = false) : fetch loMem s = .ok (.ldaImm16 0x1800#16) :=
  (fetch_ok_iff loMem s (.ldaImm16 0x1800#16)).mpr ⟨by rw [hacc]; rfl, hread⟩

theorem fetch_lda_byte_then_clc {s : State} (hread : readBytes loMem s s.pc 3 = .ok [0xA9#8, 0x00#8, 0x18#8])
    (hacc : s.acc8 = true) : fetch loMem s = .ok (.ldaImm8 0x00#8) ∧
      ∃ t, exec (.ldaImm8 0x00#8) s = .next t ∧ fetch loMem t = .ok .clc := by
  obtain ⟨hop, hrest⟩ := (readBytes_cons_ok_iff ..).mp hread
  obtain ⟨himm, hclc⟩ := (readBytes_two_ok_iff ..).mp hrest
  have hlda : fetch loMem s = .ok (.ldaImm8 0x00#8) :=
    (fetch_ok_iff loMem s (.ldaImm8 0x00#8)).mpr ⟨hacc, (readBytes_two_ok_iff ..).mpr ⟨hop, himm⟩⟩
  obtain ⟨t, hexec, hpc, -, -, hsize, hrom⟩ := exec_completes (.ldaImm8 0x00#8) s
  have hbehind : readByte loMem t t.pc = .ok 0x18#8 := by
    rw [readByte_congr loMem hsize hrom, hpc]
    exact hclc
  exact ⟨hlda, t, hexec, (fetch_ok_iff loMem t .clc).mpr ⟨rfl, (readBytes_one_ok_iff ..).mpr hbehind⟩⟩

/-- Settles O4: the fetch is the decode of the bytes at PC at the state's own width, so its length is the size of its
opcode byte there, and `A9 00 18` is an encoding of either reading. -/
theorem sizeFollowsOpcodeAndWidth : Obligations.SizeFollowsOpcodeAndWidth := by
  refine ⟨opcodeSize_table, fun s opcode hop => ⟨fun i h => opcodeSize_of_fetch_ok hop h, fun hnone => ?_⟩,
    fun s hread => ⟨fun h => fetch_lda_word_1800 hread (acc8_eq_false h),
      fun h => fetch_lda_byte_then_clc hread (acc8_eq_true h)⟩,
    fun rest => ?_, fun rest => ⟨?_, ?_⟩⟩
  · have hform : decodeOpcode s.acc8 opcode = none := (opcodeSize_none_iff s.acc8 opcode).mp hnone
    exact ⟨fetch_illegal_opcode hop hform, step_illegal_opcode hop hform⟩
  · exact (decode_ok_iff ..).mpr ⟨rfl, rfl⟩
  · exact (decode_ok_iff ..).mpr ⟨rfl, rfl⟩
  · exact (decode_ok_iff ..).mpr ⟨rfl, rfl⟩

end Sys2Proof.Machine
end

section
/-! The step-loop family: the step as the run of the instruction at PC, what it does to PC, and the flags of a transfer
(rules R80, R83, R87). -/

namespace Sys2Proof.Machine

/-! ### The step as fetch and execution -/

/-- A running core with no stop request runs the instruction it fetches. -/
theorem step_of_fetch_ok {s : State} {i : Instr} (hrun : s.run = .running) (hstop : s.stop = false)
    (hfetch : fetch loMem s = .ok i) : step s = exec i s := by
  rw [step_running s hrun hstop, hfetch]

/-- Bytes read at PC that decode to an instruction with nothing left over are what the fetch reads (rules R65, R80). -/
theorem fetch_of_decode {model : Model} {s : State} {n : Nat} {bs : List Byte} {i : Instr}
    (hread : readBytes model s s.pc n = .ok bs) (hdecode : decode s.acc8 bs = .ok (i, [])) :
    fetch model s = .ok i := by
  obtain ⟨hwf, hbs⟩ := (decode_ok_iff s.acc8 bs [] i).mp hdecode
  obtain rfl : bs = encode i := by rw [hbs, List.append_nil]
  obtain ⟨rfl, -⟩ := (readBytes_ok_iff model s s.pc n (encode i)).mp hread
  exact (fetch_ok_iff model s i).mpr ⟨hwf, hread⟩

/-- Settles O30: the bytes that decode are the ones the fetch reads, and the step runs what is fetched. -/
theorem stepRunsDecodedInstruction : Obligations.StepRunsDecodedInstruction := by
  intro s n bs i hrun hstop hread hdecode
  exact step_of_fetch_ok hrun hstop (fetch_of_decode hread hdecode)

/-! ### What a step does to PC -/

@[simp] theorem takeStop_pc (s : State) : (takeStop s).pc = s.pc := rfl
@[simp] theorem takeStop_run (s : State) : (takeStop s).run = .stopped := rfl
@[simp] theorem takeFault_pc (f : FaultCause) (s : State) : (takeFault f s).pc = s.pc := rfl
@[simp] theorem takeFault_run (f : FaultCause) (s : State) : (takeFault f s).run = .faulted f := rfl

/-- A completed instruction moves PC by its encoded length and does not end the run (rules R83, R84). -/
theorem exec_next_pc_run {i : Instr} {s t : State} (h : exec i s = .next t) :
    t.pc = s.pc + (encode i).length ∧ t.run = s.run := by
  obtain ⟨u, hu, hpc, hrun, -⟩ := exec_completes i s
  obtain rfl : u = t := Host.Outcome.next.inj (hu.symm.trans h)
  obtain ⟨hlen, -⟩ := encodedLength i
  exact ⟨by rw [hlen, hpc], hrun⟩

/-- Settles O25: of the three kinds of step only the completed instruction leaves the core running, and only it moves
PC. -/
theorem pcMovesBySizeOnly : Obligations.PcMovesBySizeOnly := by
  intro s t h
  obtain ⟨hrun, ⟨-, rfl⟩ | ⟨-, f, -, rfl⟩ | ⟨-, i, hfetch, hexec⟩⟩ := step_cases s t h
  · simp
  · simp
  · obtain ⟨hpc, hkept⟩ := exec_next_pc_run hexec
    exact ⟨fun _ => ⟨i, hfetch, hpc⟩, fun hended => absurd (hkept.trans hrun) hended⟩

/-! ### The flags of a transfer -/

/-- Bit for bit, `SetTransferFlags` is the reading of it that the claims use, at every width. -/
theorem flag_setTransferFlags_eq_transferFlag (w : Nat) (v : BitVec w) (p : Byte) (k : Nat) :
    flag (setTransferFlags w v p) k = transferFlag w v p k := by
  rw [flag_setTransferFlags, transferFlag]
  by_cases hzero : k = 1
  · subst hzero
    simp [beq_eq_decide]
  · simp [hzero, BitVec.msb_eq_getLsbD_last]

/-- Zero and Negative exclude each other: the value 0 has no most significant bit set. -/
theorem setTransferFlags_not_zero_and_negative (w : Nat) (v : BitVec w) (p : Byte) :
    ¬ (flag (setTransferFlags w v p) 1 = true ∧ flag (setTransferFlags w v p) 7 = true) := by
  rintro ⟨hzero, hneg⟩
  obtain rfl : v = 0#w := by simpa [flag_setTransferFlags] using hzero
  simp [flag_setTransferFlags] at hneg

theorem exec_tcd (s : State) :
    exec .tcd s = .next (((s.setDp s.a).setP (setTransferFlags 16 s.a s.p)).setPc (s.pc + 1)) := rfl

theorem exec_ldaImm8 (imm : Byte) (s : State) :
    exec (.ldaImm8 imm) s =
      .next (((s.setA (replaceLow s.a imm)).setP (setTransferFlags 8 imm s.p)).setPc (s.pc + 2)) := rfl

theorem exec_ldaImm16 (imm : Word) (s : State) :
    exec (.ldaImm16 imm) s = .next (((s.setA imm).setP (setTransferFlags 16 imm s.p)).setPc (s.pc + 3)) := rfl

/-- A fetched instruction exists at the width of the state (rule R72). -/
theorem wellFormed_of_fetch_ok {model : Model} {s : State} {i : Instr} (h : fetch model s = .ok i) :
    i.wellFormed s.acc8 = true :=
  ((fetch_ok_iff model s i).mp h).1

/-- The 8-bit form of LDA is fetched at 8 bits only (rule R72). -/
theorem acc8_of_fetch_ldaImm8 {model : Model} {s : State} {imm : Byte} (h : fetch model s = .ok (.ldaImm8 imm)) :
    s.acc8 = true :=
  wellFormed_of_fetch_ok h

/-- The 16-bit form of LDA is fetched at 16 bits only (rule R72). -/
theorem acc8_of_fetch_ldaImm16 {model : Model} {s : State} {imm : Word} (h : fetch model s = .ok (.ldaImm16 imm)) :
    s.acc8 = false :=
  (Bool.not_eq_true' _).mp (wellFormed_of_fetch_ok h)

/-- Settles O10: the flags are those of the value at its own width, and each caller names its width; the form of LDA that
is fetched has the width of the state. -/
theorem transferFlagsByWidth : Obligations.TransferFlagsByWidth := by
  refine ⟨fun w _ v p => ⟨fun k _ => flag_setTransferFlags_eq_transferFlag w v p k,
    setTransferFlags_not_zero_and_negative w v p⟩, fun s t => ⟨fun hexec => ?_, fun b hfetch hexec => ?_,
    fun v hfetch hexec => ?_⟩⟩
  · rw [exec_tcd] at hexec
    cases hexec
    rfl
  · rw [exec_ldaImm8] at hexec
    cases hexec
    exact ⟨acc8_of_fetch_ldaImm8 hfetch, rfl⟩
  · rw [exec_ldaImm16] at hexec
    cases hexec
    exact ⟨acc8_of_fetch_ldaImm16 hfetch, rfl⟩

end Sys2Proof.Machine
end

section
/-! The flag-operation family: CLC and SEI with their frames, and that no step depends on IRQ-disable (rules R91, R92). -/

namespace Sys2Proof.Machine

/-! ### What CLC and SEI do -/

/-- No completed instruction touches run-state, stop input or memory (rules R36, R55, R79). -/
theorem exec_keepsSurroundings {i : Instr} {s t : State} (h : exec i s = .next t) : s.keepsSurroundings t := by
  obtain ⟨u, hu, -, hrun, hstop, hsize, hrom⟩ := exec_completes i s
  obtain rfl : u = t := Host.Outcome.next.inj (hu.symm.trans h)
  exact ⟨hrun, hstop, hsize, readByte_congr loMem hsize hrom⟩

theorem exec_clc (s : State) : exec .clc s = .next ((s.setP (clearCarry s.p)).setPc (s.pc + 1)) := rfl

theorem exec_sei (s : State) : exec .sei s = .next ((s.setP (setIrqDisable s.p)).setPc (s.pc + 1)) := rfl

/-- Settles O12: CLC writes P and PC, and the new P differs in bit 0 only. -/
theorem clcClearsCarryOnly : Obligations.ClcClearsCarryOnly :=
  ⟨rfl, fun s => ⟨_, exec_clc s, fun k _ => flag_clearCarry s.p k, rfl, rfl, rfl, rfl, rfl,
    exec_keepsSurroundings (exec_clc s)⟩⟩

/-! ### The fetch and the step, as far as the state decides them -/

theorem readOperands_congr (model : Model) {s t : State} (hpc : s.pc = t.pc) (hsize : s.romSize = t.romSize)
    (hrom : s.rom = t.rom) (form : OperandForm) : readOperands model s form = readOperands model t form := by
  have hread : ∀ n, readBytes model s (s.pc + 1) n = readBytes model t (t.pc + 1) n := fun n => by
    rw [hpc, readBytes_congr model hsize hrom]
  cases form with
  | none i => rfl
  | byte build => simp only [readOperands, readOperandByte, memRead, hread]
  | word build => simp only [readOperands, readOperandWord, memRead, hread]

/-- The fetch depends on nothing but PC, the accumulator width and the cartridge (rules R80, R86). -/
theorem fetch_congr (model : Model) {s t : State} (hpc : s.pc = t.pc) (hacc8 : s.acc8 = t.acc8)
    (hsize : s.romSize = t.romSize) (hrom : s.rom = t.rom) : fetch model s = fetch model t := by
  simp only [fetch, hpc, hacc8, readByte_congr model hsize hrom, readOperands_congr model hpc hsize hrom]

theorem step_of_stop {s : State} (hrun : s.run = .running) (hstop : s.stop = true) :
    step s = .next (takeStop s) := by
  simp only [step, stepWith, hrun, hstop, if_true]

theorem step_of_fetch_error {s : State} {f : FaultCause} (hrun : s.run = .running) (hstop : s.stop = false)
    (hfetch : fetch loMem s = .error f) : step s = .next (takeFault f s) := by
  rw [step_running s hrun hstop, hfetch]

/-! ### Status bytes that differ in IRQ-disable at most -/

/-- `q` is `p` in every bit but IRQ-disable. -/
def SameButIrqDisable (p q : Byte) : Prop := ∀ k, k ≠ 2 → flag q k = flag p k

namespace SameButIrqDisable

theorem of_setFlag (p : Byte) (b : Bool) : SameButIrqDisable p (setFlag p 2 b) := fun k hk => by
  rw [flag_setFlag p 2 k b (by decide), if_neg hk]

variable {p q : Byte}

/-- Such a byte is the other with its own IRQ-disable bit written into it. -/
theorem eq_setFlag (h : SameButIrqDisable p q) : q = setFlag p 2 (flag q 2) :=
  byte_ext_flags _ _ fun k _ => by
    rw [flag_setFlag p 2 k _ (by decide)]
    split
    next hk => rw [hk]
    next hk => exact h k hk

theorem carry_eq (h : SameButIrqDisable p q) : carry q = carry p := h 0 (by decide)

/-- The accumulator width does not depend on IRQ-disable (rule R17). -/
theorem accIs8_eq (h : SameButIrqDisable p q) (e : Bool) : accIs8 e q = accIs8 e p :=
  congrArg (e || ·) (h 5 (by decide))

/-! Every flag computation keeps the agreement. -/

theorem clearCarry (h : SameButIrqDisable p q) : SameButIrqDisable (clearCarry p) (clearCarry q) := fun k hk => by
  rw [flag_clearCarry, flag_clearCarry, h k hk]

theorem setIrqDisable (h : SameButIrqDisable p q) : SameButIrqDisable (setIrqDisable p) (setIrqDisable q) :=
  fun k hk => by rw [flag_setIrqDisable, flag_setIrqDisable, h k hk]

theorem clearMask (h : SameButIrqDisable p q) (mask : Byte) :
    SameButIrqDisable (clearMask p mask) (clearMask q mask) := fun k hk => by
  rw [flag_clearMask, flag_clearMask, h k hk]

theorem setTransferFlags (h : SameButIrqDisable p q) (w : Nat) (v : BitVec w) :
    SameButIrqDisable (setTransferFlags w v p) (setTransferFlags w v q) := fun k hk => by
  rw [flag_setTransferFlags, flag_setTransferFlags, h k hk]

theorem exchangeFlags (h : SameButIrqDisable p q) (e : Bool) :
    SameButIrqDisable (exchangeFlags e p) (exchangeFlags e q) := fun k hk => by
  rw [flag_exchangeFlags, flag_exchangeFlags, h.carry_eq, h 4 (by decide), h 5 (by decide), h k hk]

end SameButIrqDisable

/-! ### No step depends on IRQ-disable (rule R92) -/

theorem fetch_setP_sameButIrqDisable (model : Model) {s : State} {q : Byte} (hq : SameButIrqDisable s.p q) :
    fetch model (s.setP q) = fetch model s :=
  fetch_congr model (State.setP_pc s q) (hq.accIs8_eq s.e) (State.setP_romSize s q) (State.setP_rom s q)

/-- No instruction reads IRQ-disable: P is the only field in which the results can differ, and there in that bit only. -/
theorem exec_setP_sameButIrqDisable {i : Instr} {s t : State} {q : Byte} (hq : SameButIrqDisable s.p q)
    (h : exec i s = .next t) : ∃ q', exec i (s.setP q) = .next (t.setP q') ∧ SameButIrqDisable t.p q' := by
  cases i <;> cases h
  case clc => exact ⟨_, rfl, hq.clearCarry⟩
  case tcd => exact ⟨_, rfl, hq.setTransferFlags 16 s.a⟩
  case sei => exact ⟨_, rfl, hq.setIrqDisable⟩
  case sta addr => exact ⟨_, rfl, hq⟩
  case stz addr => exact ⟨_, rfl, hq⟩
  case ldaImm8 imm => exact ⟨_, rfl, hq.setTransferFlags 8 imm⟩
  case ldaImm16 imm => exact ⟨_, rfl, hq.setTransferFlags 16 imm⟩
  case rep mask => exact ⟨_, rfl, hq.clearMask mask⟩
  case xce =>
    refine ⟨_, ?_, hq.exchangeFlags s.e⟩
    rw [← hq.carry_eq]
    rfl

/-- The three kinds of step: stop and fault leave P alone, and the fetch answers the same instruction. -/
theorem step_setP_sameButIrqDisable {s t : State} {q : Byte} (hq : SameButIrqDisable s.p q) (h : step s = .next t) :
    ∃ q', step (s.setP q) = .next (t.setP q') ∧ SameButIrqDisable t.p q' := by
  have hfetch' := fetch_setP_sameButIrqDisable loMem hq
  obtain ⟨hrun, ⟨hstop, rfl⟩ | ⟨hstop, f, hfetch, rfl⟩ | ⟨hstop, i, hfetch, hexec⟩⟩ := step_cases s t h
  · exact ⟨q, step_of_stop hrun hstop, hq⟩
  · exact ⟨q, step_of_fetch_error hrun hstop (hfetch'.trans hfetch), hq⟩
  · obtain ⟨q', hexec', hq'⟩ := exec_setP_sameButIrqDisable hq hexec
    have hstep : step (s.setP q) = exec i (s.setP q) := step_of_fetch_ok hrun hstop (hfetch'.trans hfetch)
    exact ⟨q', hstep.trans hexec', hq'⟩

/-- Settles O13: SEI writes P and PC, and the new P differs in bit 2 only; a step from states that differ in that bit
answers states that differ in that bit. -/
theorem seiSetsIrqDisableOnly : Obligations.SeiSetsIrqDisableOnly := by
  refine ⟨rfl, fun s => ⟨_, exec_sei s, fun k _ => flag_setIrqDisable s.p k, rfl, rfl, rfl, rfl, rfl,
    exec_keepsSurroundings (exec_sei s)⟩, fun s t b h => ?_⟩
  obtain ⟨q', hstep, hq'⟩ := step_setP_sameButIrqDisable (.of_setFlag s.p b) h
  exact ⟨t.setP q', hstep, congrArg t.setP hq'.eq_setFlag⟩

end Sys2Proof.Machine
end

section
/-! The transfer family: TCD with its frame, and that no step depends on DP (rules R33, R94). -/

namespace Sys2Proof.Machine

/-- No instruction reads DP: the results can differ in DP only. TCD overwrites the difference, the others carry it on. -/
theorem exec_setDp {i : Instr} {s t : State} (d : Word) (h : exec i s = .next t) :
    ∃ d', exec i (s.setDp d) = .next (t.setDp d') := by
  cases i <;> cases h
  case tcd => exact ⟨s.a, rfl⟩
  all_goals exact ⟨d, rfl⟩

/-- The fetch does not look at DP. -/
theorem fetch_setDp (model : Model) (s : State) (d : Word) : fetch model (s.setDp d) = fetch model s :=
  fetch_congr model (State.setDp_pc s d) rfl (State.setDp_romSize s d) (State.setDp_rom s d)

/-- The three kinds of step: stop and fault leave DP alone, and the fetch answers the same instruction. -/
theorem step_setDp {s t : State} (d : Word) (h : step s = .next t) :
    ∃ d', step (s.setDp d) = .next (t.setDp d') := by
  have hfetch' := fetch_setDp loMem s d
  obtain ⟨hrun, ⟨hstop, rfl⟩ | ⟨hstop, f, hfetch, rfl⟩ | ⟨hstop, i, hfetch, hexec⟩⟩ := step_cases s t h
  · exact ⟨d, step_of_stop hrun hstop⟩
  · exact ⟨d, step_of_fetch_error hrun hstop (hfetch'.trans hfetch)⟩
  · obtain ⟨d', hexec'⟩ := exec_setDp d hexec
    have hstep : step (s.setDp d) = exec i (s.setDp d) := step_of_fetch_ok hrun hstop (hfetch'.trans hfetch)
    exact ⟨d', hstep.trans hexec'⟩

/-- Settles O16: TCD writes DP, P and PC, with the flags of the whole word; two steps whose start differs in DP at most end
in states that differ in DP at most. -/
theorem tcdTransfersAllSixteenBits : Obligations.TcdTransfersAllSixteenBits := by
  refine ⟨rfl, fun s => ⟨_, exec_tcd s, rfl, fun k _ => flag_setTransferFlags_eq_transferFlag 16 s.a s.p k, rfl, rfl,
    rfl, rfl, exec_keepsSurroundings (exec_tcd s)⟩, fun s t d h => ?_⟩
  obtain ⟨d', hstep⟩ := step_setDp d h
  exact ⟨t.setDp d', hstep, rfl⟩

end Sys2Proof.Machine
end

section
/-! The reset family: PC after power-on and where the vector's bytes lie in the map (rules R45, R124). -/

namespace Sys2Proof.Machine

/-- The word of two bytes as a number. -/
theorem append_toNat (hi lo : Byte) : (hi ++ lo : Word).toNat = lo.toNat + 0x100 * hi.toNat := by
  rw [BitVec.toNat_append, ← Nat.shiftLeft_add_eq_or_of_lt lo.isLt, Nat.shiftLeft_eq]
  omega

/-- A loaded file holds at each offset inside it the byte the file has there. -/
theorem byteAt_ofFile_of_getElem? {file : List Byte} {i : Nat} {b : Byte} (h : file[i]? = some b) :
    Memory.byteAt (Memory.ofFile 0 file) i = b := by
  obtain ⟨hi, rfl⟩ := List.getElem?_eq_some_iff.mp h
  simpa using byteAt_ofFile 0 i file hi

/-- Rule R124: the reset vector of a loaded file is the little-endian word of its bytes at 0x7FFC and 0x7FFD. -/
theorem resetVector_ofFile {file : List Byte} {lo hi : Byte} (hlo : file[0x7FFC]? = some lo)
    (hhi : file[0x7FFD]? = some hi) : Memory.resetVector (Memory.ofFile 0 file) = hi ++ lo := by
  rw [Memory.resetVector, Config.resetVectorOffset, byteAt_ofFile_of_getElem? hlo, byteAt_ofFile_of_getElem? hhi,
    combineLE_pair]

/-- Rules R45, R124: after power-on the window of bank 0 shows the file from its first byte on. -/
theorem readByte_powerOn {v : ResetValues} {file : List Byte} {s : State} (hs : State.powerOn v file = some s)
    {i : Nat} {b : Byte} (hi : i < 0x8000) (hb : file[i]? = some b) : readByte loMem s (0x8000 + i) = .ok b := by
  obtain ⟨-, rfl⟩ := (powerOn_some_iff v file s).mp hs
  have hlen : i < file.length := (List.getElem?_eq_some_iff.mp hb).1
  have hoff : 0x8000 + i - 0x8000 = i := by omega
  rw [readByte_ok_iff, loMem_some_iff, hoff]
  exact ⟨⟨by omega, by omega, rfl⟩, hlen, (byteAt_ofFile_of_getElem? hb).symm⟩

/-- Rule R124: PC after power-on. -/
theorem powerOn_pc {v : ResetValues} {file : List Byte} {s : State} {lo hi : Byte}
    (hs : State.powerOn v file = some s) (hlo : file[0x7FFC]? = some lo) (hhi : file[0x7FFD]? = some hi) :
    s.pc = lo.toNat + 0x100 * hi.toNat := by
  obtain ⟨-, rfl⟩ := (powerOn_some_iff v file s).mp hs
  rw [State.seeded, resetVector_ofFile hlo hhi, append_toNat]

/-- Settles O41: PC is the vector's word, which is below 0x10000 and so of bank 0; the two bytes read at 0x8000 past their
file offsets. -/
theorem resetVectorSeedsPc : Obligations.ResetVectorSeedsPc := by
  intro v file s lo hi hs hlo hhi
  have hpc : s.pc = lo.toNat + 0x100 * hi.toNat := powerOn_pc hs hlo hhi
  have hbank0 : s.pc < 0x10000 := by omega
  exact ⟨hpc, Nat.div_eq_of_lt hbank0, Nat.mod_eq_of_lt hbank0, readByte_powerOn hs (by decide) hlo,
    readByte_powerOn hs (by decide) hhi⟩

end Sys2Proof.Machine
end

section
/-! Reads of memory: the image of LoMem, the answers of a byte read, and the value of a multi-byte read (rules R45, R48 to
R52). -/

namespace Sys2Proof.Machine

/-! ### The translation -/

/-- LoMem takes 0x8000 off every address it maps. -/
theorem off_of_loMem_some {a : Nat} {m : MapResult} (h : loMem a = some m) : m.off = a - 0x8000 ∧ 0x8000 ≤ a := by
  obtain ⟨-, hlow, rfl⟩ := (loMem_some_iff a m).mp h
  exact ⟨rfl, by omega⟩

/-- The cartridge offset `off` is reached from the address `off + 0x8000`, and from no other. -/
theorem exists_loMem_iff (off : Nat) :
    (∃ a, loMem a = some { region := .cartridge, off := off }) ↔ off % 0x10000 < 0x8000 ∧ off ≤ 0x3F7FFF := by
  constructor
  · rintro ⟨a, h⟩
    obtain ⟨hmax, hlow, hm⟩ := (loMem_some_iff a _).mp h
    obtain ⟨-, hoff⟩ := MapResult.mk.inj hm
    omega
  · rintro ⟨hlow, hmax⟩
    refine ⟨off + 0x8000, (loMem_some_iff _ _).mpr ⟨by omega, by omega, ?_⟩⟩
    rw [Nat.add_sub_cancel]

/-- Settles O6: taking 0x8000 off keeps the order, and the image is where putting it back lands in a window. -/
theorem loMemImage : Obligations.LoMemImage := by
  refine ⟨fun a a' m m' h h' => ?_, exists_loMem_iff⟩
  have hoff := off_of_loMem_some h
  have hoff' := off_of_loMem_some h'
  omega

/-! ### One byte -/

/-- Rules R48, R49: a read at a translated address is decided by the ROM bound. -/
theorem readByte_mapped {model : Model} {a off : Nat} (h : model a = some { region := .cartridge, off := off }) (s : State) :
    readByte model s a =
      if off < s.romSize then .ok (Memory.byteAt s.rom off) else .error (.romBoundsFault a off) := by
  by_cases hin : off < s.romSize
  · simp [readByte, h, hin, Nat.not_le.mpr hin]
  · simp [readByte, h, hin, Nat.not_lt.mp hin]

/-- Settles O7: the mapped and the unmapped addresses are LoMem's. -/
theorem readByteAnswers : Obligations.ReadByteAnswers := by
  intro s b o ho
  exact ⟨fun hb hlow => readByte_mapped (loMem_bank_offset_mapped ho hb hlow) s,
    fun hout => readByte_unmapped ((loMem_bank_offset_none_iff ho).mpr hout) s⟩

/-! ### Several bytes -/

/-- The first byte is the lowest digit, in base 0x100, of the combined value. -/
theorem combineLE_cons (b : Byte) (bs : List Byte) : combineLE (b :: bs) = b.toNat + 0x100 * combineLE bs := by
  rw [combineLE, Nat.or_comm, ← Nat.shiftLeft_add_eq_or_of_lt b.isLt, Nat.shiftLeft_eq]
  omega

theorem combineLE_lt (bs : List Byte) : combineLE bs < 0x100 ^ bs.length := by
  induction bs with
  | nil => decide
  | cons b bs ih =>
    have hb := b.isLt
    rw [combineLE_cons, List.length_cons, Nat.pow_succ]
    omega

/-- Byte `i` of the list is digit `i` of the combined value (rule R50). -/
theorem combineLE_digit (bs : List Byte) (i : Nat) (hi : i < bs.length) :
    BitVec.ofNat 8 (combineLE bs / 0x100 ^ i) = bs[i] := by
  induction bs generalizing i with
  | nil => exact absurd hi (Nat.not_lt_zero i)
  | cons b bs ih =>
    cases i with
    | zero =>
      apply BitVec.eq_of_toNat_eq
      have hb := b.isLt
      simp [combineLE_cons, Nat.mod_eq_of_lt hb]
    | succ i =>
      have hrest : combineLE (b :: bs) / 0x100 = combineLE bs := by
        have hb := b.isLt
        rw [combineLE_cons]
        omega
      rw [Nat.pow_succ', ← Nat.div_div_eq_div_mul, hrest]
      exact ih i (Nat.lt_of_succ_lt_succ hi)

theorem memRead_ok_iff (model : Model) (s : State) (a n v : Nat) :
    memRead model s a n = .ok v ↔ ∃ bs, readBytes model s a n = .ok bs ∧ combineLE bs = v := by
  cases h : readBytes model s a n <;> simp [memRead, h, Except.map]

theorem memRead_error_iff (model : Model) (s : State) (a n : Nat) (f : FaultCause) :
    memRead model s a n = .error f ↔ readBytes model s a n = .error f := by
  cases h : readBytes model s a n <;> simp [memRead, h, Except.map]

/-- A multi-byte read that fails has a byte that fails (rule R50). -/
theorem memRead_ok_of_bytes {model : Model} {s : State} {a n : Nat}
    (h : ∀ i < n, ∃ b, readByte model s (a + i) = .ok b) : ∃ v, memRead model s a n = .ok v := by
  cases hread : memRead model s a n with
  | ok v => exact ⟨v, rfl⟩
  | error f =>
    obtain ⟨i, hi, hfail, -⟩ := readBytes_error model s a n f ((memRead_error_iff model s a n f).mp hread)
    obtain ⟨b, hb⟩ := h i hi
    cases hb.symm.trans hfail

/-- Settles O8: a successful read combines the bytes at hand, whose digits it has; a failed one names its lowest failing
byte. -/
theorem multiByteReadIsLittleEndian : Obligations.MultiByteReadIsLittleEndian := by
  intro s a n
  refine ⟨fun v hv => ?_, fun f hf => ?_, memRead_ok_of_bytes⟩
  · obtain ⟨bs, hbs, rfl⟩ := (memRead_ok_iff loMem s a n v).mp hv
    obtain ⟨rfl, hbyte⟩ := (readBytes_ok_iff loMem s a n bs).mp hbs
    exact ⟨combineLE_lt bs, fun i hi => by rw [combineLE_digit bs i hi, hbyte i hi]⟩
  · exact readBytes_error loMem s a n f ((memRead_error_iff loMem s a n f).mp hf)

/-- Settles O9: two bytes give a value below 0x10000, which is its own offset in bank 0. -/
theorem addressReadIsInBankZero : Obligations.AddressReadIsInBankZero := by
  refine fun s a => ⟨fun n => rfl, fun addr h => ?_⟩
  have hlt : addr < 0x100 ^ 2 := ((multiByteReadIsLittleEndian s a 2).1 addr h).1
  exact ⟨Nat.div_eq_of_lt hlt, Nat.mod_eq_of_lt hlt⟩

end Sys2Proof.Machine
end

section
/-! The invariant of runs: what a fetch says about the place of PC, that every end is true and reported, and that reset and
every step keep the invariant; and that every run ends (rules R21, R55, R88, R100 to R106, R135). -/

namespace Sys2Proof.Machine

/-! ### What a step does to the state around PC -/

@[simp] theorem takeFault_outputs (f : FaultCause) (s : State) :
    (takeFault f s).outputs = s.outputs ++ [f.report] := rfl

/-- A completed instruction leaves the stop input and the cartridge alone. -/
theorem exec_next_stop_rom {i : Instr} {s t : State} (h : exec i s = .next t) :
    t.stop = s.stop ∧ t.romSize = s.romSize ∧ t.rom = s.rom := by
  obtain ⟨u, hu, -, -, hstop, hsize, hrom⟩ := exec_completes i s
  obtain rfl : u = t := Host.Outcome.next.inj (hu.symm.trans h)
  exact ⟨hstop, hsize, hrom⟩

/-- No step touches the stop input or the cartridge (rules R36, R55). -/
theorem step_stop_rom {s t : State} (h : step s = .next t) :
    t.stop = s.stop ∧ t.romSize = s.romSize ∧ t.rom = s.rom := by
  obtain ⟨-, ⟨-, rfl⟩ | ⟨-, f, -, rfl⟩ | ⟨-, i, -, hexec⟩⟩ := step_cases s t h
  · exact ⟨rfl, rfl, rfl⟩
  · exact ⟨rfl, rfl, rfl⟩
  · exact exec_next_stop_rom hexec

/-- A fetched instruction lies in one window of the map: its first and its last byte were read there, and it is too short
to span the unmapped half of a bank (rules R44, R88). -/
theorem window_of_fetch_ok {s : State} {i : Instr} (h : fetch loMem s = .ok i) :
    0x8000 ≤ s.pc % 0x10000 ∧ s.pc % 0x10000 + (encode i).length ≤ 0x10000 ∧ s.pc < 0x400000 := by
  obtain ⟨hlen, hpos, hmax, -⟩ := encodedLength i
  obtain ⟨b, hfirst⟩ := fetch_ok_bytes s i h 0 (by omega)
  obtain ⟨c, hlast⟩ := fetch_ok_bytes s i h (i.size - 1) (by omega)
  have hfirst := readByte_ok_window hfirst
  have hlast := readByte_ok_window hlast
  omega

/-- A step after which the core still runs completed an instruction inside one window, and moved PC up inside it
or just past its end. -/
theorem pc_window_of_step_running {s t : State} (h : step s = .next t) (hrun : t.run = .running) :
    0x8000 ≤ s.pc % 0x10000 ∧ s.pc < t.pc ∧ t.pc ≤ (s.pc / 0x10000 + 1) * 0x10000 ∧ s.pc < 0x400000 := by
  obtain ⟨i, hfetch, hpc⟩ := (pcMovesBySizeOnly s t h).1 hrun
  obtain ⟨hlow, hend, hmax⟩ := window_of_fetch_ok hfetch
  obtain ⟨hlen, hpos, -⟩ := encodedLength i
  omega

/-- Settles O38: a step that ends the run leaves PC, every other one moves it inside a window. -/
theorem pcStaysInItsBank : Obligations.PcStaysInItsBank := by
  intro s t h
  by_cases hrun : t.run = .running
  · have hwindow := pc_window_of_step_running h hrun
    omega
  · have hpc : t.pc = s.pc := (pcMovesBySizeOnly s t h).2 hrun
    omega

/-! ### Ends are true and reported -/

theorem operandForm_size_le_three (form : OperandForm) : form.size ≤ 3 := by
  cases form <;> simp [OperandForm.size]

/-- The record of a read that failed within the instruction at PC is true (rules R101, R102). -/
theorem endRecordTrue_of_readByte_error {s : State} {f : FaultCause} {k : Nat} (hk : k ≤ 2)
    (h : readByte loMem s (s.pc + k) = .error f) : (takeFault f s).endRecordTrue := by
  rcases readByte_error s (s.pc + k) f h with ⟨rfl, hmap⟩ | ⟨rfl, hmap, hbound⟩
  · exact ⟨Nat.le_add_right _ _, Nat.add_le_add_left hk _, hmap⟩
  · exact ⟨Nat.le_add_right _ _, Nat.add_le_add_left hk _, hmap, hbound⟩

/-- The record of a failed fetch is true: taking the fault changes nothing that the record speaks of (rule R105). -/
theorem endRecordTrue_of_fetch_error {s : State} {f : FaultCause} (h : fetch loMem s = .error f) :
    (takeFault f s).endRecordTrue := by
  rcases fetch_error_cases s f h with
    hfirst | ⟨opcode, hop, hform, rfl⟩ | ⟨opcode, form, hop, hform, k, -, hk, hoperand, -⟩
  · exact endRecordTrue_of_readByte_error (k := 0) (by decide) hfirst
  · exact ⟨rfl, hop, (opcodeSize_none_iff s.acc8 opcode).mpr hform⟩
  · have hsize := operandForm_size_le_three form
    exact endRecordTrue_of_readByte_error (by omega) hoperand

theorem endReported_takeFault (f : FaultCause) (s : State) : (takeFault f s).endReported :=
  List.getLast?_concat

theorem endRecordTrue_of_running {s : State} (h : s.run = .running) : s.endRecordTrue := by
  rw [State.endRecordTrue, h]
  trivial

theorem endReported_of_running {s : State} (h : s.run = .running) : s.endReported := by
  rw [State.endReported, h]
  trivial

/-- Every step leaves a true and reported end, or a core that still runs, wherever it started. -/
theorem end_of_step {s t : State} (h : step s = .next t) : t.endRecordTrue ∧ t.endReported := by
  obtain ⟨hrun, ⟨hstop, rfl⟩ | ⟨-, f, hfetch, rfl⟩ | ⟨-, i, -, hexec⟩⟩ := step_cases s t h
  · exact ⟨hstop, trivial⟩
  · exact ⟨endRecordTrue_of_fetch_error hfetch, endReported_takeFault f s⟩
  · have hruns : t.run = .running := (exec_next_pc_run hexec).2.trans hrun
    exact ⟨endRecordTrue_of_running hruns, endReported_of_running hruns⟩

/-! ### The invariant -/

/-- Bank 0 is left by no step: an address past its end cannot be fetched from (rules R21, R88). -/
theorem step_pc_le_bankEnd {s t : State} (hpc : s.pc ≤ 0x10000) (h : step s = .next t) : t.pc ≤ 0x10000 := by
  by_cases hrun : t.run = .running
  · have hwindow := pc_window_of_step_running h hrun
    omega
  · rwa [(pcMovesBySizeOnly s t h).2 hrun]

/-- Settles O40: the cartridge is untouched, PC stays within reach, and the end of every step is true and reported. -/
theorem stepKeepsInvariant : Obligations.StepKeepsInvariant := by
  intro s t hinv h
  obtain ⟨-, hsize, hrom⟩ := step_stop_rom h
  obtain ⟨htrue, hreported⟩ := end_of_step h
  exact
    { romCanonical := by rw [State.romWf, hsize, hrom]; exact hinv.romCanonical
      hasResetVector := hsize ▸ hinv.hasResetVector
      pcReach := step_pc_le_bankEnd hinv.pcReach h
      endTrue := htrue
      reported := hreported }

/-- A seeded core meets the invariant as soon as its cartridge is canonical and holds the vector (rules R38, R124). -/
theorem seeded_inv (v : ResetValues) {size : Nat} {rom : List Host.Cell} (hwf : Memory.wf size rom = true)
    (hsize : Config.minRomSize ≤ size) : (State.seeded v size rom).Inv where
  romCanonical := hwf
  hasResetVector := hsize
  pcReach := Nat.le_of_lt (Memory.resetVector rom).isLt
  endTrue := trivial
  reported := trivial

/-- Settles O43: the blank cartridge and every loaded file are canonical. -/
theorem invariantHoldsAfterReset : Obligations.InvariantHoldsAfterReset := by
  refine ⟨seeded_inv _ reset_romWf (by decide), fun v file s hs => ?_⟩
  obtain ⟨hlen, rfl⟩ := (powerOn_some_iff v file s).mp hs
  exact seeded_inv v (ofFile_wf file) hlen

/-! ### Runs end -/

/-- How many bytes of the window around PC are still ahead of it; none where PC is in no window. -/
def windowRoom (pc : Nat) : Nat := if 0x8000 ≤ pc % 0x10000 then 0x10000 - pc % 0x10000 else 0

theorem windowRoom_le (pc : Nat) : windowRoom pc ≤ 0x8000 := by
  unfold windowRoom
  split <;> omega

/-- Every completed instruction uses up some of the window (rules R83, R88). -/
theorem windowRoom_lt_of_step_running {s t : State} (h : step s = .next t) (hrun : t.run = .running) :
    windowRoom t.pc < windowRoom s.pc := by
  have hwindow := pc_window_of_step_running h hrun
  unfold windowRoom
  split_ifs <;> omega

/-- A run of at least one step started from a running core. -/
theorem running_of_run_succ {n : Nat} {s t : State} (h : Host.Core.run Sys2Proof.core (n + 1) s = .next t) :
    s.run = .running := by
  obtain ⟨u, hu, -⟩ := run_next_cases h
  exact (step_cases s u hu).1

/-- A run is at most one step longer than the room ahead of PC, and no longer than it while the core runs. -/
theorem run_length_le_windowRoom (n : Nat) {s t : State} (h : Host.Core.run Sys2Proof.core n s = .next t) :
    n ≤ windowRoom s.pc + 1 ∧ (t.run = .running → n ≤ windowRoom s.pc) := by
  induction n generalizing s with
  | zero => exact ⟨Nat.zero_le _, fun _ => Nat.zero_le _⟩
  | succ n ih =>
    obtain ⟨u, hu, hrest⟩ := run_next_cases h
    by_cases hrun : u.run = .running
    · have hroom := windowRoom_lt_of_step_running hu hrun
      obtain ⟨hany, hruns⟩ := ih hrest
      exact ⟨by omega, fun ht => by have := hruns ht; omega⟩
    · cases n with
      | zero =>
        obtain rfl : u = t := Host.Outcome.next.inj hrest
        exact ⟨by omega, fun ht => absurd ht hrun⟩
      | succ n => exact absurd (running_of_run_succ hrest) hrun

/-- Settles O39: a window holds 0x8000 bytes. -/
theorem everyRunEnds : Obligations.EveryRunEnds := by
  intro n s t h
  have hroom := windowRoom_le s.pc
  obtain ⟨hany, hruns⟩ := run_length_le_windowRoom n h
  exact ⟨by omega, fun ht => by have := hruns ht; omega⟩

end Sys2Proof.Machine
end

section
/-! The order of checks in a step, the fault of each failed one, and the ends of runs (rules R73, R79, R104 to R108, R114,
R133, R134), with the operand reads of REP, LDA and the staged stores (rules R93, R95 to R97). -/

namespace Sys2Proof.Machine

/-! ### The fetch, check by check -/

theorem fetch_of_opcode_error {model : Model} {s : State} {f : FaultCause}
    (hop : readByte model s s.pc = .error f) : fetch model s = .error f := by
  simp [fetch, hop]

theorem fetch_of_byte_operand {model : Model} {s : State} {opcode b : Byte} {build : Byte → Instr}
    (hop : readByte model s s.pc = .ok opcode) (hform : decodeOpcode s.acc8 opcode = some (.byte build))
    (hb : readByte model s (s.pc + 1) = .ok b) : fetch model s = .ok (build b) := by
  rw [fetch_of_opcode hop hform, readOperands, (readOperandByte_ok_iff model s b).mpr hb, Except.map]

/-- A two-byte operand is read low byte first (rules R51, R52). -/
theorem fetch_of_word_operand {model : Model} {s : State} {opcode lo hi : Byte} {build : Word → Instr}
    (hop : readByte model s s.pc = .ok opcode) (hform : decodeOpcode s.acc8 opcode = some (.word build))
    (hlo : readByte model s (s.pc + 1) = .ok lo) (hhi : readByte model s (s.pc + 2) = .ok hi) :
    fetch model s = .ok (build (hi ++ lo)) := by
  have hword := (readOperandWord_ok_iff model s (hi ++ lo)).mpr ⟨lo, hi, hlo, hhi, rfl⟩
  rw [fetch_of_opcode hop hform, readOperands, hword, Except.map]

/-- The lowest operand byte that cannot be read gives the fault of the operand reads (log 17). -/
theorem readOperands_error {model : Model} {s : State} {form : OperandForm} {k : Nat} {f : FaultCause}
    (hpos : 1 ≤ k) (hk : k < form.size) (hlow : ∀ j < k, ∃ b, readByte model s (s.pc + j) = .ok b)
    (hfail : readByte model s (s.pc + k) = .error f) : readOperands model s form = .error f := by
  cases form with
  | none i => exact absurd hk (Nat.not_lt.mpr hpos)
  | byte build =>
    obtain rfl : k = 1 := Nat.le_antisymm (Nat.le_of_lt_succ hk) hpos
    rw [readOperands, (readOperandByte_error_iff model s f).mpr hfail, Except.map]
  | word build =>
    have hword : readOperandWord model s = .error f := by
      rw [readOperandWord_error_iff]
      have hk : k < 3 := hk
      rcases (by omega : k = 1 ∨ k = 2) with rfl | rfl
      · exact .inl hfail
      · exact .inr ⟨hlow 1 (by decide), hfail⟩
    rw [readOperands, hword, Except.map]

/-- The same, by the size that the opcode byte has in the state (rules R68, R107). -/
theorem fetch_of_operand_error {model : Model} {s : State} {opcode : Byte} {size k : Nat} {f : FaultCause}
    (hop : readByte model s s.pc = .ok opcode) (hsize : opcodeSize s.acc8 opcode = some size) (hpos : 1 ≤ k)
    (hk : k < size) (hlow : ∀ j < k, ∃ b, readByte model s (s.pc + j) = .ok b)
    (hfail : readByte model s (s.pc + k) = .error f) : fetch model s = .error f := by
  obtain ⟨form, hform, rfl⟩ := Option.map_eq_some_iff.mp hsize
  rw [fetch_of_opcode hop hform, readOperands_error hpos hk hlow hfail]

/-! ### The operand reads of REP, LDA and the stores

Each is a step on a known opcode byte: it runs the instruction of the bytes at hand, or takes the fault of the first
operand byte that cannot be read. -/

section
variable {s : State} {opcode : Byte} (hrun : s.run = .running) (hstop : s.stop = false)
  (hop : readByte loMem s s.pc = .ok opcode)
include hrun hstop hop

theorem step_of_byte_operand {b : Byte} {build : Byte → Instr}
    (hform : decodeOpcode s.acc8 opcode = some (.byte build)) (hb : readByte loMem s (s.pc + 1) = .ok b) :
    step s = exec (build b) s :=
  step_of_fetch_ok hrun hstop (fetch_of_byte_operand hop hform hb)

theorem step_of_word_operand {lo hi : Byte} {build : Word → Instr}
    (hform : decodeOpcode s.acc8 opcode = some (.word build)) (hlo : readByte loMem s (s.pc + 1) = .ok lo)
    (hhi : readByte loMem s (s.pc + 2) = .ok hi) : step s = exec (build (hi ++ lo)) s :=
  step_of_fetch_ok hrun hstop (fetch_of_word_operand hop hform hlo hhi)

theorem step_of_operand_error {size k : Nat} {f : FaultCause} (hsize : opcodeSize s.acc8 opcode = some size)
    (hpos : 1 ≤ k) (hk : k < size) (hlow : ∀ j < k, ∃ b, readByte loMem s (s.pc + j) = .ok b)
    (hfail : readByte loMem s (s.pc + k) = .error f) : step s = .next (takeFault f s) :=
  step_of_fetch_error hrun hstop (fetch_of_operand_error hop hsize hpos hk hlow hfail)

/-- The bytes below PC + 1 are the opcode byte alone. -/
theorem step_of_first_operand_error {size : Nat} {f : FaultCause} (hsize : opcodeSize s.acc8 opcode = some size)
    (hlong : 1 < size) (hfail : readByte loMem s (s.pc + 1) = .error f) : step s = .next (takeFault f s) :=
  step_of_operand_error hrun hstop hop hsize (Nat.le_refl 1) hlong
    (fun j hj => by obtain rfl : j = 0 := Nat.lt_one_iff.mp hj; exact ⟨opcode, hop⟩) hfail

/-- The bytes below PC + 2 are the opcode byte and the low operand byte. -/
theorem step_of_second_operand_error {size : Nat} {lo : Byte} {f : FaultCause}
    (hsize : opcodeSize s.acc8 opcode = some size) (hlong : 2 < size) (hlo : readByte loMem s (s.pc + 1) = .ok lo)
    (hfail : readByte loMem s (s.pc + 2) = .error f) : step s = .next (takeFault f s) :=
  step_of_operand_error hrun hstop hop hsize (by decide) hlong
    (fun j hj => by
      rcases (by omega : j = 0 ∨ j = 1) with rfl | rfl
      exacts [⟨opcode, hop⟩, ⟨lo, hlo⟩]) hfail

end

/-- Settles O15: C2 takes one operand byte. -/
theorem repReadsItsMask : Obligations.RepReadsItsMask := by
  intro s hrun hstop hop
  refine ⟨fun mask hmask => step_of_byte_operand hrun hstop hop (decodeOpcode_rep s.acc8) hmask, fun f hfail => ?_⟩
  exact ⟨takeFault f s, step_of_first_operand_error hrun hstop hop (size := 2) rfl (by decide) hfail, rfl, rfl, rfl⟩

/-- Settles O11: a fetched form exists at the width of the state. -/
theorem widthDecidesLdaForm : Obligations.WidthDecidesLdaForm := by
  intro s
  exact ⟨fun b h => (Bool.or_eq_true ..).mp (acc8_of_fetch_ldaImm8 h),
    fun v h => Bool.or_eq_false_iff.mp (acc8_of_fetch_ldaImm16 h)⟩

theorem decodeOpcode_lda_of_acc8 {s : State} (h : s.acc8 = true) :
    decodeOpcode s.acc8 0xA9#8 = some (.byte .ldaImm8) := by
  rw [h, decodeOpcode_ldaByte]

theorem decodeOpcode_lda_of_not_acc8 {s : State} (h : s.acc8 = false) :
    decodeOpcode s.acc8 0xA9#8 = some (.word .ldaImm16) := by
  rw [h, decodeOpcode_ldaWord]

/-- An opcode byte of the table has the size of its form (rule R68). -/
theorem opcodeSize_of_decodeOpcode {acc8 : Bool} {opcode : Byte} {form : OperandForm}
    (h : decodeOpcode acc8 opcode = some form) : opcodeSize acc8 opcode = some form.size := by
  rw [opcodeSize, h, Option.map_some]

/-- Settles O19: the width of the state chooses the form of A9, and the form its operand bytes. -/
theorem ldaReadsItsOperandAtWidth : Obligations.LdaReadsItsOperandAtWidth := by
  intro s hrun hstop hop
  refine ⟨fun hwidth => ?_, fun hwidth => ?_⟩
  · have hform := decodeOpcode_lda_of_acc8 (acc8_eq_true hwidth)
    have hsize := opcodeSize_of_decodeOpcode hform
    refine ⟨fun v hv => step_of_byte_operand hrun hstop hop hform hv, fun f hfail => ?_⟩
    exact ⟨takeFault f s, step_of_first_operand_error hrun hstop hop hsize (by decide) hfail, rfl, rfl, rfl, rfl⟩
  · have hform := decodeOpcode_lda_of_not_acc8 (acc8_eq_false hwidth)
    have hsize := opcodeSize_of_decodeOpcode hform
    refine ⟨fun lo hi hlo hhi => step_of_word_operand hrun hstop hop hform hlo hhi, fun f hfail => ?_,
      fun lo f hlo hfail => ?_⟩
    · exact ⟨takeFault f s, step_of_first_operand_error hrun hstop hop hsize (by decide) hfail, rfl, rfl, rfl, rfl⟩
    · exact ⟨takeFault f s, step_of_second_operand_error hrun hstop hop hsize (by decide) hlo hfail, rfl, rfl, rfl, rfl⟩

/-- Both staged stores take a two-byte operand, at either width (rules R66, R70). -/
theorem decodeOpcode_store (acc8 : Bool) {opcode : Byte} {store : Word → Instr}
    (h : (opcode = 0x8D#8 ∧ store = .sta) ∨ (opcode = 0x9C#8 ∧ store = .stz)) :
    decodeOpcode acc8 opcode = some (.word store) := by
  rcases h with ⟨rfl, rfl⟩ | ⟨rfl, rfl⟩
  · exact decodeOpcode_sta acc8
  · exact decodeOpcode_stz acc8

/-- Settles O21: the operand of a store is a word, and the report of the fault is all that a failed read puts out. -/
theorem storesReadTheirOperands : Obligations.StoresReadTheirOperands := by
  intro s opcode store hrun hstop hstore hop
  have hform := decodeOpcode_store s.acc8 hstore
  have hsize : opcodeSize s.acc8 opcode = some 3 := opcodeSize_of_decodeOpcode hform
  refine ⟨fun lo hi hlo hhi => step_of_word_operand hrun hstop hop hform hlo hhi, fun k f hk hlow hfail => ?_⟩
  exact ⟨step_of_operand_error hrun hstop hop hsize (by omega) (by omega) hlow hfail, takeFault_outputs f s⟩

/-! ### Every check with its fault -/

/-- A translated address past the ROM faults with both values (rule R102). -/
theorem readByte_past_rom {s : State} {a off : Nat} (hmap : loMem a = some { region := .cartridge, off := off })
    (hbound : s.romSize ≤ off) : readByte loMem s a = .error (.romBoundsFault a off) := by
  rw [readByte_mapped hmap, if_neg (Nat.not_lt.mpr hbound)]

/-- Settles O31: each check that fails decides the fetch, whatever the later ones would have found. -/
theorem checksComeInOrder : Obligations.ChecksComeInOrder := by
  refine fun s hrun => ⟨fun hstop => step_of_stop hrun hstop, fun hstop => ⟨fun hmap => ?_, fun off hmap hbound => ?_,
    fun opcode hop => ⟨fun hnone => ?_, fun size k hsize hpos hk hlow => ⟨fun hmap => ?_, fun off hmap hbound => ?_⟩⟩⟩⟩
  · exact step_of_fetch_error hrun hstop (fetch_of_opcode_error (readByte_unmapped hmap s))
  · exact step_of_fetch_error hrun hstop (fetch_of_opcode_error (readByte_past_rom hmap hbound))
  · exact step_illegal_opcode hop ((opcodeSize_none_iff s.acc8 opcode).mp hnone) hrun hstop
  · exact step_of_operand_error hrun hstop hop hsize hpos hk hlow (readByte_unmapped hmap s)
  · exact step_of_operand_error hrun hstop hop hsize hpos hk hlow (readByte_past_rom hmap hbound)

/-- Settles O37: the first byte past the bank's end is an operand byte, and offset 0 of no bank is mapped. -/
theorem bankEndFaults : Obligations.BankEndFaults := by
  intro s opcode size hrun hstop hop hsize hcross hinside
  have hnext : s.pc + (0x10000 - s.pc % 0x10000) = (s.pc / 0x10000 + 1) * 0x10000 := by omega
  have hunmapped : loMem ((s.pc / 0x10000 + 1) * 0x10000) = none := (loMem_none_iff _).mpr (by omega)
  refine step_of_operand_error hrun hstop hop hsize (k := 0x10000 - s.pc % 0x10000) (by omega) (by omega)
    (fun j hj => hinside j (by omega)) ?_
  rw [hnext]
  exact readByte_unmapped hunmapped s

/-! ### Faults and stops as ends of a step -/

/-- A running core that is Faulted after the step took that fault from its fetch (rule R104). -/
theorem fetch_error_of_step_faulted {s t : State} {f : FaultCause} (h : step s = .next t) (hf : t.run = .faulted f) :
    s.stop = false ∧ fetch loMem s = .error f ∧ t = takeFault f s := by
  obtain ⟨hrun, ⟨-, rfl⟩ | ⟨hstop, g, hfetch, rfl⟩ | ⟨-, i, -, hexec⟩⟩ := step_cases s t h
  · cases hf
  · obtain rfl : g = f := RunState.faulted.inj hf
    exact ⟨hstop, hfetch, rfl⟩
  · cases (((exec_next_pc_run hexec).2.trans hrun).symm.trans hf)

/-- Settles O33: the step took the fault, and that writes two fields. -/
theorem faultsArePrecise : Obligations.FaultsArePrecise := by
  intro s t f h hf
  obtain ⟨-, -, ht⟩ := fetch_error_of_step_faulted h hf
  exact ht

/-- A read of memory gives no decode fault. -/
theorem readByte_ne_decodeFault (s : State) (a : Nat) (opcode : Byte) (pc : Nat) :
    readByte loMem s a ≠ .error (.decodeFault opcode pc) := by
  intro h
  rcases readByte_error s a _ h with ⟨hf, -⟩ | ⟨hf, -⟩ <;> cases hf

/-- A decode fault of a fetch tells the byte at PC, which is outside the table, and PC (rule R100). -/
theorem fetch_decodeFault {s : State} {opcode : Byte} {pc : Nat} (h : fetch loMem s = .error (.decodeFault opcode pc)) :
    readByte loMem s s.pc = .ok opcode ∧ decodeOpcode s.acc8 opcode = none ∧ pc = s.pc := by
  rcases fetch_error_cases s _ h with hfirst | ⟨op, hop, hform, hf⟩ | ⟨op, form, -, -, k, -, -, hoperand, -⟩
  · exact absurd hfirst (readByte_ne_decodeFault s s.pc opcode pc)
  · obtain ⟨rfl, rfl⟩ := FaultCause.decodeFault.inj hf
    exact ⟨hop, hform, rfl⟩
  · exact absurd hoperand (readByte_ne_decodeFault s (s.pc + k) opcode pc)

/-- Settles O32: a decode fault is the fetch's, and the fetch has it for the byte at PC exactly if the table has no such
opcode. -/
theorem illegalOpcodesFault : Obligations.IllegalOpcodesFault := by
  intro s opcode hrun hstop hop
  have hrecord : ∀ t op pc, step s = .next t → t.run = .faulted (.decodeFault op pc) →
      op = opcode ∧ decodeOpcode s.acc8 opcode = none ∧ pc = s.pc ∧ t = takeFault (.decodeFault op pc) s := by
    intro t op pc h hf
    obtain ⟨-, hfetch, ht⟩ := fetch_error_of_step_faulted h hf
    obtain ⟨hop', hform, hpc⟩ := fetch_decodeFault hfetch
    obtain rfl : opcode = op := Except.ok.inj (hop.symm.trans hop')
    exact ⟨rfl, hform, hpc, ht⟩
  refine ⟨⟨fun hout => ?_, ?_⟩, fun t op pc h hf => ?_⟩
  · have hform := (decodeOpcode_none_iff s.acc8 opcode).mpr hout
    exact ⟨_, step_illegal_opcode hop hform hrun hstop, opcode, s.pc, rfl⟩
  · rintro ⟨t, h, op, pc, hf⟩
    obtain ⟨-, hform, -⟩ := hrecord t op pc h hf
    exact (decodeOpcode_none_iff s.acc8 opcode).mp hform
  · obtain ⟨hbyte, -, hpc, rfl⟩ := hrecord t op pc h hf
    exact ⟨hbyte, hpc, rfl, rfl, rfl, rfl, rfl⟩

/-- Settles O34: no step writes the stop input, and a running core with it raised stops. -/
theorem stopIsStickyAndPrompt : Obligations.StopIsStickyAndPrompt := by
  intro s t h
  exact ⟨(step_stop_rom h).1, fun hrun => step_of_stop (s := raiseStop t) hrun rfl⟩

/-- A running core has a next state: it stops, takes a fault or completes an instruction. -/
theorem step_next_of_running {s : State} (hrun : s.run = .running) : ∃ t, step s = .next t := by
  cases hstop : s.stop with
  | true => exact ⟨_, step_of_stop hrun hstop⟩
  | false =>
    cases hfetch : fetch loMem s with
    | error f => exact ⟨_, step_of_fetch_error hrun hstop hfetch⟩
    | ok i =>
      obtain ⟨t, hexec, -⟩ := exec_completes i s
      exact ⟨t, (step_of_fetch_ok hrun hstop hfetch).trans hexec⟩

theorem step_of_stopped {s : State} (hrun : s.run = .stopped) : step s = .fault .coreStopped := by
  rw [step, stepWith, hrun]

theorem step_of_faulted {s : State} {f : FaultCause} (hrun : s.run = .faulted f) :
    step s = .fault (.coreFaulted f) := by
  rw [step, stepWith, hrun]

/-- Settles O35: one clause per run-state. -/
theorem onlyEndedCoresAreStuck : Obligations.OnlyEndedCoresAreStuck :=
  fun _ => ⟨step_of_stopped, fun _ => step_of_faulted, step_next_of_running⟩

/-- Settles O36: the three kinds of step are told apart by the stop input and the fetch, and each has its own run-state. -/
theorem endsTellStopFromFault : Obligations.EndsTellStopFromFault := by
  intro s t h
  obtain ⟨hrun, ⟨hstop, rfl⟩ | ⟨hstop, f, hfetch, rfl⟩ | ⟨hstop, i, hfetch, hexec⟩⟩ := step_cases s t h
  · simp [State.endedAsRequested, State.endedEarly, hstop]
  · simp [State.endedAsRequested, State.endedEarly, hstop, hfetch]
  · have hruns : t.run = .running := (exec_next_pc_run hexec).2.trans hrun
    simp [State.endedAsRequested, State.endedEarly, hstop, hfetch, hruns]

end Sys2Proof.Machine
end

section
/-! What each instruction does and what it leaves alone, alone and over runs of any length: REP, LDA, the staged stores,
XCE, the frame of every instruction, memory, the flags that cannot be set, and what is read by no step (rules R16, R24 to
R33, R40, R43, R55, R90, R93, R95 to R98, R111). -/

namespace Sys2Proof.Machine

/-! ### The effects -/

theorem exec_rep (mask : Byte) (s : State) :
    exec (.rep mask) s = .next ((s.setP (clearMask s.p mask)).setPc (s.pc + 2)) := rfl

theorem exec_sta (addr : Word) (s : State) :
    exec (.sta addr) s = .next ((s.emit (.unimplementedWrite 0x8D#8 s.pc addr.toNat)).setPc (s.pc + 3)) := rfl

theorem exec_stz (addr : Word) (s : State) :
    exec (.stz addr) s = .next ((s.emit (.unimplementedWrite 0x9C#8 s.pc addr.toNat)).setPc (s.pc + 3)) := rfl

theorem exec_xce (s : State) :
    exec .xce s = .next (((s.setE (carry s.p)).setP (exchangeFlags s.e s.p)).setPc (s.pc + 1)) := rfl

/-- Settles O14: REP writes P and PC, and the new P has the mask's bits cleared. -/
theorem repClearsMaskedFlags : Obligations.RepClearsMaskedFlags := by
  refine fun mask => ⟨rfl, fun s => ⟨_, exec_rep mask s, fun k _ => ?_, rfl, rfl, rfl, rfl, rfl,
    exec_keepsSurroundings (exec_rep mask s)⟩⟩
  calc flag (clearMask s.p mask) k
    _ = (flag s.p k && !flag mask k) := flag_clearMask s.p mask k
    _ = if flag mask k = true then false else flag s.p k := by cases flag mask k <;> simp

/-- Settles O17: the accumulator's halves are those of `replaceLow`, the flags those of the byte. -/
theorem ldaByteReplacesLowByte : Obligations.LdaByteReplacesLowByte := fun imm s _ =>
  ⟨_, exec_ldaImm8 imm s, replaceLow_low s.a imm, replaceLow_high s.a imm,
    fun k _ => flag_setTransferFlags_eq_transferFlag 8 imm s.p k, rfl, rfl, rfl, rfl,
    exec_keepsSurroundings (exec_ldaImm8 imm s)⟩

/-- Settles O18: the accumulator is the operand, the flags those of the word. -/
theorem ldaWordReplacesAccumulator : Obligations.LdaWordReplacesAccumulator := fun imm s _ =>
  ⟨_, exec_ldaImm16 imm s, rfl, fun k _ => flag_setTransferFlags_eq_transferFlag 16 imm s.p k, rfl, rfl, rfl, rfl,
    exec_keepsSurroundings (exec_ldaImm16 imm s)⟩

/-- Settles O20: a staged store writes PC and the outputs. -/
theorem storesAreStaged : Obligations.StoresAreStaged :=
  ⟨fun addr s => ⟨_, exec_sta addr s, rfl, rfl, rfl, rfl, rfl, rfl, exec_keepsSurroundings (exec_sta addr s)⟩,
    fun addr s => ⟨_, exec_stz addr s, rfl, rfl, rfl, rfl, rfl, rfl, exec_keepsSurroundings (exec_stz addr s)⟩⟩

/-! ### The mode exchange -/

/-- XCE writes bits 0, 4 and 5 of P and no other. -/
theorem flag_exchangeFlags_other {k : Nat} (h0 : k ≠ 0) (h4 : k ≠ 4) (h5 : k ≠ 5) (e : Bool) (p : Byte) :
    flag (exchangeFlags e p) k = flag p k := by
  rw [flag_exchangeFlags, if_neg h0, if_neg h4, if_neg h5]

theorem flag_exchangeFlags_carry (e : Bool) (p : Byte) : flag (exchangeFlags e p) 0 = e :=
  flag_exchangeFlags e p 0

/-- Bit 4 follows the old E where there is a switch. -/
theorem flag_exchangeFlags_four (e : Bool) (p : Byte) :
    flag (exchangeFlags e p) 4 = if e = flag p 0 then flag p 4 else e :=
  flag_exchangeFlags e p 4

/-- Bit 5 is set by the switch to native mode, and only by it. -/
theorem flag_exchangeFlags_five (e : Bool) (p : Byte) :
    flag (exchangeFlags e p) 5 = if e && !flag p 0 then true else flag p 5 :=
  flag_exchangeFlags e p 5

/-- Settles O22: each clause reads off one bit of `exchangeFlags`. -/
theorem xceExchangesCarryAndMode : Obligations.XceExchangesCarryAndMode := by
  refine ⟨rfl, fun s => ⟨_, exec_xce s, rfl, flag_exchangeFlags_carry s.e s.p, fun he hc => ?_, fun he hc => ?_,
    fun heq => ?_, fun k hk => flag_exchangeFlags_other (by omega) (by omega) (by omega) s.e s.p, rfl, rfl, rfl, rfl,
    exec_keepsSurroundings (exec_xce s)⟩⟩
  · simp [flag_exchangeFlags_four, flag_exchangeFlags_five, he, hc]
  · simp [flag_exchangeFlags_four, flag_exchangeFlags_five, he, hc]
  · simp [flag_exchangeFlags_four, flag_exchangeFlags_five, heq]

/-- With no switch the exchange leaves P as it is (rule R98; decision D7, log 10). -/
theorem exchangeFlags_carry (p : Byte) : exchangeFlags (flag p 0) p = p := by
  refine byte_ext_flags _ _ fun k _ => ?_
  rw [flag_exchangeFlags, carry, carryBit]
  split_ifs <;> simp_all

/-- Settles O23: the second exchange starts from the E and the Carry that the first one left. -/
theorem xceTwice : Obligations.XceTwice := by
  intro s t u h h'
  rw [exec_xce] at h
  cases h
  rw [exec_xce] at h'
  cases h'
  have hcarry : flag (exchangeFlags s.e s.p) 0 = s.e := flag_exchangeFlags_carry s.e s.p
  refine ⟨hcarry, flag_exchangeFlags_carry _ _, fun he hc => ?_, fun he hc => ?_, fun heq => ?_⟩
  · simp [flag_exchangeFlags_four, flag_exchangeFlags_five, flag_exchangeFlags_carry, carry, carryBit, he, hc]
  · simp [flag_exchangeFlags_four, flag_exchangeFlags_five, flag_exchangeFlags_carry, carry, carryBit, he, hc]
  · have hstays : exchangeFlags s.e s.p = s.p := by rw [heq, exchangeFlags_carry]
    simp [hstays, carry, carryBit, exchangeFlags_carry]

/-! ### The frame of every instruction, field by field -/

section
variable {i : Instr} {s t : State} (h : exec i s = .next t)
include h

/-- Only LDA writes A (rule R16). -/
theorem exec_a (hi : mayWriteA i = false) : t.a = s.a := by
  cases i <;> cases h
  case ldaImm8 imm => cases hi
  case ldaImm16 imm => cases hi
  all_goals rfl

/-- Only TCD writes DP (rule R33). -/
theorem exec_dp (hi : i ≠ .tcd) : t.dp = s.dp := by
  cases i <;> cases h
  case tcd => exact absurd rfl hi
  all_goals rfl

/-- Only XCE writes E (rule R32). -/
theorem exec_e (hi : i ≠ .xce) : t.e = s.e := by
  cases i <;> cases h
  case xce => exact absurd rfl hi
  all_goals rfl

/-- A staged store puts out its event, every other instruction nothing (rule R90). -/
theorem exec_outputs : t.outputs = s.outputs ++ emitted s.pc i := by
  cases i <;> cases h
  case sta addr => rfl
  case stz addr => rfl
  all_goals exact (List.append_nil _).symm

/-- A bit of P changes only by its writers (rules R24 to R31). -/
theorem exec_flag {k : Nat} (hi : mayWriteFlag k i = false) : flag t.p k = flag s.p k := by
  cases i <;> cases h
  case clc =>
    have hk : k ≠ 0 := by simpa [mayWriteFlag] using hi
    exact (flag_clearCarry s.p k).trans (if_neg hk)
  case sei =>
    have hk : k ≠ 2 := by simpa [mayWriteFlag] using hi
    exact (flag_setIrqDisable s.p k).trans (if_neg hk)
  case rep mask =>
    have hk : flag mask k = false := hi
    simpa [hk] using flag_clearMask s.p mask k
  case xce =>
    simp only [mayWriteFlag, Bool.or_eq_false_iff, beq_eq_false_iff_ne] at hi
    obtain ⟨⟨h0, h4⟩, h5⟩ := hi
    exact flag_exchangeFlags_other h0 h4 h5 s.e s.p
  case sta addr => rfl
  case stz addr => rfl
  all_goals
    simp only [mayWriteFlag, Bool.or_eq_false_iff, beq_eq_false_iff_ne] at hi
    obtain ⟨hzero, hneg⟩ := hi
    exact (flag_setTransferFlags _ _ s.p k).trans ((if_neg hneg).trans (if_neg hzero))

end

/-- Settles O24, from the frame of each field. -/
theorem frameOfEveryInstruction : Obligations.FrameOfEveryInstruction := fun _ _ _ h =>
  ⟨exec_a h, exec_dp h, exec_e h, fun _ _ => exec_flag h, exec_outputs h, exec_keepsSurroundings h⟩

/-! ### Memory and the flags along a run -/

/-- Settles O26: no step writes the cartridge, and reads depend on nothing else. -/
theorem noRunChangesMemory : Obligations.NoRunChangesMemory := by
  intro n s t h
  have hcartridge : t.romSize = s.romSize ∧ t.rom = s.rom := by
    refine run_induction (P := fun u => u.romSize = s.romSize ∧ u.rom = s.rom) ?_ n ⟨rfl, rfl⟩ h
    rintro u u' ⟨hsize, hrom⟩ hstep
    obtain ⟨-, hsize', hrom'⟩ := step_stop_rom hstep
    exact ⟨hsize'.trans hsize, hrom'.trans hrom⟩
  obtain ⟨hsize, hrom⟩ := hcartridge
  exact ⟨hsize, hrom, readByte_congr loMem hsize hrom⟩

/-- A bit that is clear is set by an instruction among its writers only, and not by those that clear it. -/
theorem exec_flag_set_cases {i : Instr} {s t : State} {k : Nat} (h : exec i s = .next t) (hclear : flag s.p k = false)
    (hset : flag t.p k = true) : mayWriteFlag k i = true ∧ i ≠ .clc ∧ ∀ mask, i ≠ .rep mask := by
  refine ⟨?_, ?_, ?_⟩
  · by_contra hi
    rw [exec_flag h (Bool.eq_false_of_not_eq_true hi), hclear] at hset
    cases hset
  · rintro rfl
    rw [exec_clc] at h
    cases h
    simp [flag_clearCarry, hclear] at hset
  · rintro mask rfl
    rw [exec_rep] at h
    cases h
    simp [flag_clearMask, hclear] at hset

/-- A step that sets a bit of P ran an instruction: stop and fault leave P alone. -/
theorem step_flag_set {s t : State} {k : Nat} (h : step s = .next t) (hclear : flag s.p k = false)
    (hset : flag t.p k = true) : ∃ i, fetch loMem s = .ok i ∧ exec i s = .next t := by
  obtain ⟨-, ⟨-, rfl⟩ | ⟨-, f, -, rfl⟩ | ⟨-, i, hfetch, hexec⟩⟩ := step_cases s t h
  · cases hclear.symm.trans hset
  · cases hclear.symm.trans hset
  · exact ⟨i, hfetch, hexec⟩

/-- Decimal and Overflow are written by REP alone, which clears (rules R27, R30). -/
theorem step_flag_three_six_clear {s t : State} {k : Nat} (hk : k = 3 ∨ k = 6) (h : step s = .next t)
    (hclear : flag s.p k = false) : flag t.p k = false := by
  by_contra hset
  have hset : flag t.p k = true := Bool.eq_true_of_not_eq_false hset
  obtain ⟨i, -, hexec⟩ := step_flag_set h hclear hset
  obtain ⟨hwriter, -, hrep⟩ := exec_flag_set_cases hexec hclear hset
  cases i
  case rep mask => exact hrep mask rfl
  all_goals rcases hk with rfl | rfl <;> cases hwriter

theorem run_flag_three_six_clear {n : Nat} {s t : State} {k : Nat} (hk : k = 3 ∨ k = 6)
    (h : Host.Core.run Sys2Proof.core n s = .next t) (hclear : flag s.p k = false) : flag t.p k = false :=
  run_induction (P := fun u => flag u.p k = false) (fun _ _ hu hstep => step_flag_three_six_clear hk hstep hu) n hclear h

/-- Among the writers of Carry only XCE does not clear it, and XCE gives it the old E (rules R24, R98). -/
theorem eq_xce_of_exec_carry_set {i : Instr} {s t : State} (h : exec i s = .next t) (hclear : flag s.p 0 = false)
    (hset : flag t.p 0 = true) : i = .xce := by
  obtain ⟨hwriter, hclc, hrep⟩ := exec_flag_set_cases h hclear hset
  cases i
  case xce => rfl
  case clc => exact absurd rfl hclc
  case rep mask => exact absurd rfl (hrep mask)
  all_goals cases hwriter

/-- Settles O27: the bit's only writers clear it, and Carry's one setter is the exchange with E. -/
theorem flagsThatCannotBeSet : Obligations.FlagsThatCannotBeSet := by
  refine ⟨fun n s t h => ⟨run_flag_three_six_clear (.inl rfl) h, run_flag_three_six_clear (.inr rfl) h⟩,
    fun s t h hclear hset => ?_⟩
  obtain ⟨i, hfetch, hexec⟩ := step_flag_set h hclear hset
  obtain rfl := eq_xce_of_exec_carry_set hexec hclear hset
  have hop : readByte loMem s s.pc = .ok 0xFB#8 := (readBytes_one_ok_iff ..).mp ((fetch_ok_iff loMem s .xce).mp hfetch).2
  rw [exec_xce] at hexec
  cases hexec
  exact ⟨(flag_exchangeFlags_carry s.e s.p).symm.trans hset, hclear, hop⟩

/-! ### The translation unit is consulted in the instruction only -/

section
variable {m m' : Model} (s : State)

theorem readByte_congr_model {a : Nat} (h : m a = m' a) : readByte m s a = readByte m' s a := by
  rw [readByte, h, readByte]

theorem readBytes_congr_model {a n : Nat} (h : ∀ i < n, m (a + i) = m' (a + i)) :
    readBytes m s a n = readBytes m' s a n := by
  induction n generalizing a with
  | zero => rfl
  | succ n ih =>
    have hfirst : readByte m s a = readByte m' s a := readByte_congr_model s (h 0 (Nat.succ_pos n))
    have hrest : readBytes m s (a + 1) n = readBytes m' s (a + 1) n :=
      ih fun i hi => by simpa [Nat.add_assoc, Nat.add_comm 1 i] using h (i + 1) (Nat.succ_lt_succ hi)
    rw [readBytes, readBytes, hfirst, hrest]

variable {s} (h : ∀ a, s.pc ≤ a → a ≤ s.pc + 2 → m a = m' a)
include h

/-- Operand bytes stand at PC + 1 and PC + 2 (rule R67; log 18). -/
theorem readOperands_congr_model (form : OperandForm) : readOperands m s form = readOperands m' s form := by
  have hread : ∀ n ≤ 2, readBytes m s (s.pc + 1) n = readBytes m' s (s.pc + 1) n :=
    fun n hn => readBytes_congr_model s fun i hi => h _ (by omega) (by omega)
  cases form with
  | none i => rfl
  | byte build => simp only [readOperands, readOperandByte, memRead, hread 1 (by decide)]
  | word build => simp only [readOperands, readOperandWord, memRead, hread 2 (by decide)]

theorem fetch_congr_model : fetch m s = fetch m' s := by
  have hop : readByte m s s.pc = readByte m' s s.pc := readByte_congr_model s (h _ (by omega) (by omega))
  simp only [fetch, hop, readOperands_congr_model h]

end

/-- Settles O29: only the fetch consults the translation unit. -/
theorem stepReadsOnlyItsInstruction : Obligations.StepReadsOnlyItsInstruction := by
  intro m m' s h
  simp only [stepWith, fetch_congr_model h]

/-! ### DP and the flags that nothing reads -/

/-- `q` agrees with `p` on the two bits that an instruction reads: Carry and bit 5. -/
def SameReadFlags (p q : Byte) : Prop := ∀ k, k = 0 ∨ k = 5 → flag q k = flag p k

theorem agreesOnRead_iff (s s' : State) :
    s.agreesOnRead s' ↔ ∃ d q, SameReadFlags s.p q ∧ s' = (s.setDp d).setP q := by
  constructor
  · rintro ⟨hpc, ha, he, hcarry, hwidth, hrun, hstop, hsize, hrom, hout⟩
    refine ⟨s'.dp, s'.p, ?_, State.ext_fields _ _ hpc.symm ha.symm rfl rfl he.symm hrun.symm hstop.symm hsize.symm
      hrom.symm hout.symm⟩
    rintro k (rfl | rfl)
    exacts [hcarry.symm, hwidth.symm]
  · rintro ⟨d, q, hq, rfl⟩
    exact ⟨rfl, rfl, rfl, (hq 0 (.inl rfl)).symm, (hq 5 (.inr rfl)).symm, rfl, rfl, rfl, rfl, rfl⟩

/-- The fetch takes its width from E and bit 5. -/
theorem fetch_agreesOnRead (model : Model) {s s' : State} (h : s.agreesOnRead s') : fetch model s' = fetch model s := by
  obtain ⟨d, q, hq, rfl⟩ := (agreesOnRead_iff s s').mp h
  exact fetch_congr model rfl (congrArg (s.e || ·) (hq 5 (.inr rfl))) rfl rfl

/-- The writers of Carry and bit 5 are CLC, REP and XCE, and they write them from nothing but the two bits and E. -/
theorem exec_sameReadFlags {i : Instr} {s s' t t' : State} (he : s'.e = s.e) (hq : SameReadFlags s.p s'.p)
    (h : exec i s = .next t) (h' : exec i s' = .next t') : SameReadFlags t.p t'.p := by
  intro k hk
  cases hwriter : mayWriteFlag k i with
  | false => rw [exec_flag h hwriter, exec_flag h' hwriter, hq k hk]
  | true =>
    cases i
    case clc =>
      cases h; cases h'
      change flag (clearCarry s'.p) k = flag (clearCarry s.p) k
      rw [flag_clearCarry, flag_clearCarry, hq k hk]
    case rep mask =>
      cases h; cases h'
      change flag (clearMask s'.p mask) k = flag (clearMask s.p mask) k
      rw [flag_clearMask, flag_clearMask, hq k hk]
    case xce =>
      cases h; cases h'
      change flag (exchangeFlags s'.e s'.p) k = flag (exchangeFlags s.e s.p) k
      rcases hk with rfl | rfl
      · rw [flag_exchangeFlags_carry, flag_exchangeFlags_carry, he]
      · rw [flag_exchangeFlags_five, flag_exchangeFlags_five, he, hq 0 (.inl rfl), hq 5 (.inr rfl)]
    all_goals rcases hk with rfl | rfl <;> cases hwriter

/-- No instruction reads P beyond Carry, except for what it puts into P itself. -/
theorem exec_setP {i : Instr} {s t : State} {q : Byte} (hcarry : carry q = carry s.p) (h : exec i s = .next t) :
    ∃ q', exec i (s.setP q) = .next (t.setP q') := by
  cases i <;> cases h
  case xce => exact ⟨exchangeFlags s.e q, by rw [exec_xce, ← hcarry]; rfl⟩
  all_goals exact ⟨_, rfl⟩

/-- Agreement on what is read is kept by every instruction. -/
theorem exec_agreesOnRead {i : Instr} {s s' t : State} (hagree : s.agreesOnRead s') (h : exec i s = .next t) :
    ∃ t', exec i s' = .next t' ∧ t.agreesOnRead t' := by
  obtain ⟨d, q, hq, rfl⟩ := (agreesOnRead_iff s s').mp hagree
  obtain ⟨d', hdp⟩ := exec_setDp d h
  obtain ⟨q', hp⟩ := exec_setP (s := s.setDp d) (hq 0 (.inl rfl)) hdp
  have hq' : SameReadFlags t.p q' := exec_sameReadFlags (s := s) (s' := (s.setDp d).setP q) rfl hq h hp
  exact ⟨_, hp, (agreesOnRead_iff ..).mpr ⟨d', q', hq', rfl⟩⟩

/-- Agreement on what is read is kept by every step: both stop, both take the same fault, or both run the same
instruction. -/
theorem step_agreesOnRead {s s' t : State} (hagree : s.agreesOnRead s') (h : step s = .next t) :
    ∃ t', step s' = .next t' ∧ t.agreesOnRead t' := by
  have hfetch' := fetch_agreesOnRead loMem hagree
  obtain ⟨d, q, hq, rfl⟩ := (agreesOnRead_iff s s').mp hagree
  obtain ⟨hrun, ⟨hstop, rfl⟩ | ⟨hstop, f, hfetch, rfl⟩ | ⟨hstop, i, hfetch, hexec⟩⟩ := step_cases s t h
  · exact ⟨_, step_of_stop hrun hstop, (agreesOnRead_iff ..).mpr ⟨d, q, hq, rfl⟩⟩
  · exact ⟨_, step_of_fetch_error hrun hstop (hfetch'.trans hfetch), (agreesOnRead_iff ..).mpr ⟨d, q, hq, rfl⟩⟩
  · obtain ⟨t', hexec', hagree'⟩ := exec_agreesOnRead hagree hexec
    have hstep : step ((s.setDp d).setP q) = exec i ((s.setDp d).setP q) :=
      step_of_fetch_ok hrun hstop (hfetch'.trans hfetch)
    exact ⟨t', hstep.trans hexec', hagree'⟩

/-- Whether and why a core is stuck depends on its run-state alone (rule R79). -/
theorem step_fault_congr {s s' : State} {r : Fault} (hrun : s.run = s'.run) (h : step s = .fault r) :
    step s' = .fault r := by
  cases hs : s.run with
  | running =>
    obtain ⟨t, ht⟩ := step_next_of_running hs
    cases ht.symm.trans h
  | stopped => rw [← h, step_of_stopped hs, step_of_stopped (hrun.symm.trans hs)]
  | faulted f => rw [← h, step_of_faulted hs, step_of_faulted (hrun.symm.trans hs)]

/-- Settles O28: agreement is kept step by step, and it includes the run-state, which alone decides when a run is stuck. -/
theorem unreadStateHasNoInfluence : Obligations.UnreadStateHasNoInfluence := by
  intro n
  induction n with
  | zero =>
    refine fun s s' hagree => ⟨fun t h => ?_, fun f h => ?_⟩
    · obtain rfl : s = t := Host.Outcome.next.inj h
      exact ⟨s', rfl, hagree⟩
    · cases h
  | succ n ih =>
    intro s s' hagree
    cases hstep : step s with
    | next u =>
      obtain ⟨u', hstep', hagree'⟩ := step_agreesOnRead hagree hstep
      rw [run_of_next n hstep, run_of_next n hstep']
      exact ih u u' hagree'
    | fault r =>
      obtain ⟨-, -, -, -, -, hrun, -⟩ := hagree
      rw [run_of_fault n hstep, run_of_fault n (step_fault_congr hrun hstep)]
      exact ⟨fun t h => (by cases h), fun f h => h⟩
    | refused r => exact absurd hstep (step_not_refused s r)

end Sys2Proof.Machine
end

section
/-! Power-on and the first fetch, and the model's own placing of an instruction (rules R8, R38, R123 to R128; log 19). -/

namespace Sys2Proof.Machine

/-! ### Power-on -/

/-- A file too short to hold the vector gives no state (rule R125). -/
theorem powerOn_short (v : ResetValues) {file : List Byte} (h : file.length < 0x7FFE) : State.powerOn v file = none :=
  if_pos h

/-- Settles O42: a file long enough seeds a core whose cartridge reads as the file. -/
theorem powerOnLoadsFileAndParameters : Obligations.PowerOnLoadsFileAndParameters := by
  refine fun v file => ⟨powerOn_short v, fun hlen => ?_⟩
  refine ⟨_, (powerOn_some_iff v file _).mpr ⟨hlen, rfl⟩, rfl, rfl, rfl, rfl, rfl, rfl, rfl, rfl, fun i hi => ?_⟩
  exact byteAt_ofFile_of_getElem? (List.getElem?_eq_getElem hi)

/-- In the window of bank 0 the translation takes 0x8000 off. -/
theorem loMem_bank_zero {a : Nat} (hlow : 0x8000 ≤ a) (hhigh : a ≤ 0xFFFF) :
    loMem a = some { region := .cartridge, off := a - 0x8000 } :=
  (loMem_some_iff a _).mpr ⟨by omega, by omega, rfl⟩

theorem loMem_below_window {a : Nat} (h : a < 0x8000) : loMem a = none :=
  (loMem_none_iff a).mpr (by omega)

/-- Settles O44: PC lies in bank 0, below the window or in it, and in it the file's length is the ROM bound. -/
theorem firstFetchNeedsAGoodVector : Obligations.FirstFetchNeedsAGoodVector := by
  intro v file s hs
  obtain ⟨-, rfl⟩ := (powerOn_some_iff v file s).mp hs
  have hpc : (State.seeded v file.length (Memory.ofFile 0 file)).pc ≤ 0xFFFF :=
    Nat.le_of_lt_succ (Memory.resetVector (Memory.ofFile 0 file)).isLt
  refine ⟨fun hbelow => ?_, fun hlow hpast => ?_, fun hlow hin => ?_⟩
  · have hunmapped := loMem_below_window hbelow
    exact step_of_fetch_error rfl rfl (fetch_of_opcode_error (readByte_unmapped hunmapped _))
  · exact step_of_fetch_error rfl rfl (fetch_of_opcode_error (readByte_past_rom (loMem_bank_zero hlow hpc) hpast))
  · exact ⟨_, (readByte_ok_iff _ _ _).mpr ⟨loMem_bank_zero hlow hpc, hin, rfl⟩⟩

/-! ### Placing an instruction -/

/-- The core that `withFetchWord` places its bytes in: let run, with PC and the accumulator width seated. -/
def State.seatedForWord (s : State) (nbits w : Nat) : State :=
  if (tableBytes nbits w).head? = some 0xA9#8 then seatWidth (tableAcc8 nbits) (seatPc (letRun s)) else seatPc (letRun s)

theorem withFetchWord_eq (s : State) (nbits w : Nat) :
    s.withFetchWord nbits w =
      placeBytes ((s.seatedForWord nbits w).pc - 0x8000) (tableBytes nbits w) (s.seatedForWord nbits w) := rfl

/-- A core in which the longest instruction can be placed at PC, and which will then fetch it. -/
structure State.ReadyToPlace (s : State) : Prop where
  running : s.run = .running
  noStop : s.stop = false
  canonical : s.romWf = true
  pcLow : 0x8000 ≤ s.pc % 0x10000
  pcRoom : s.pc % 0x10000 ≤ 0xFFFD
  pcMapped : s.pc < 0x400000

theorem readyToPlace_seatPc_letRun {s : State} (h : s.romWf = true) : (seatPc (letRun s)).ReadyToPlace := by
  obtain ⟨hroom, hlow, hmax, heq⟩ := seatPc_eq (letRun s)
  exact
    { running := by rw [heq]; rfl
      noStop := by rw [heq]; rfl
      canonical := seatPc_romWf (letRun s) h
      pcLow := hlow
      pcRoom := hroom
      pcMapped := hmax }

/-- Seating the width writes E and P only, which placing does not look at. -/
theorem readyToPlace_seatWidth {s : State} (h : s.ReadyToPlace) (acc8 : Bool) : (seatWidth acc8 s).ReadyToPlace := by
  rw [(seatWidth_acc8 acc8 s).2]
  exact ⟨h.running, h.noStop, h.canonical, h.pcLow, h.pcRoom, h.pcMapped⟩

theorem readyToPlace_seatedForWord {s : State} (h : s.romWf = true) (nbits w : Nat) :
    (s.seatedForWord nbits w).ReadyToPlace := by
  unfold State.seatedForWord
  split
  · exact readyToPlace_seatWidth (readyToPlace_seatPc_letRun h) _
  · exact readyToPlace_seatPc_letRun h

theorem seatedForWord_acc8 (s : State) {nbits w : Nat} (h : (tableBytes nbits w).head? = some 0xA9#8) :
    (s.seatedForWord nbits w).acc8 = tableAcc8 nbits := by
  rw [State.seatedForWord, if_pos h]
  exact (seatWidth_acc8 _ _).1

/-- Bytes placed at PC read back there, as far as they stay in the bank. -/
theorem readByte_placeBytes {s : State} (h : s.ReadyToPlace) {bs : List Byte} {k : Nat} (hk : k < bs.length)
    (hbank : s.pc % 0x10000 + k < 0x10000) :
    readByte loMem (placeBytes (s.pc - 0x8000) bs s) (s.pc + k) = .ok bs[k] := by
  have hlow := h.pcLow
  have hmax := h.pcMapped
  have hoff : s.pc + k - 0x8000 = s.pc - 0x8000 + k := by omega
  have hfits : s.pc - 0x8000 + bs.length ≤ max s.romSize (s.pc - 0x8000 + bs.length) := Nat.le_max_right _ _
  have hwf := wf_grow (Nat.le_max_left s.romSize (s.pc - 0x8000 + bs.length)) h.canonical
  have hbyte : Memory.byteAt (Memory.putAll s.rom (s.pc - 0x8000) bs) (s.pc - 0x8000 + k) = bs[k] := by
    rw [byteAt_putAll bs _ _ hfits hwf, if_pos (Nat.le_add_right _ _), Nat.add_sub_cancel_left,
      List.getElem?_eq_getElem hk, Option.getD_some]
  rw [readByte_ok_iff, loMem_some_iff, hoff, placeBytes_eq]
  exact ⟨⟨by omega, by omega, rfl⟩, by dsimp only; omega, hbyte.symm⟩

/-- The bytes placed at PC, read from PC on. -/
theorem readBytes_placeBytes {s : State} (h : s.ReadyToPlace) {bs rest : List Byte} (hlen : bs.length ≤ 3) :
    readBytes loMem (placeBytes (s.pc - 0x8000) (bs ++ rest) s) s.pc bs.length = .ok bs := by
  refine (readBytes_ok_iff ..).mpr ⟨rfl, fun k hk => ?_⟩
  have hroom := h.pcRoom
  have hk' : k < (bs ++ rest).length := by
    rw [List.length_append]
    omega
  rw [readByte_placeBytes h hk' (by omega), List.getElem_append_left hk]

/-- Only the forms of LDA depend on the width (rule R72). -/
theorem wellFormed_of_width_of_lda {i : Instr} {acc8 acc8' : Bool} (hwf : i.wellFormed acc8 = true)
    (hlda : (encode i).head? = some 0xA9#8 → acc8' = acc8) : i.wellFormed acc8' = true := by
  cases i
  case ldaImm8 imm => rwa [hlda rfl]
  case ldaImm16 imm => rwa [hlda rfl]
  all_goals rfl

theorem decode_of_decodeTableWord {nbits w : Nat} {i : Instr} (h : decodeTableWord nbits w = some i) :
    ∃ rest, decode (tableAcc8 nbits) (tableBytes nbits w) = .ok (i, rest) := by
  unfold decodeTableWord at h
  split at h
  next rest hdecode =>
    cases h
    exact ⟨rest, hdecode⟩
  next => cases h

/-- The fetch after placing a table word reads the instruction of that word. -/
theorem fetch_withFetchWord {s : State} {nbits w : Nat} {i : Instr} (hwf : s.romWf = true)
    (h : decodeTableWord nbits w = some i) : fetch loMem (s.withFetchWord nbits w) = .ok i := by
  obtain ⟨rest, hdecode⟩ := decode_of_decodeTableWord h
  obtain ⟨hform, hbytes⟩ := (decode_ok_iff ..).mp hdecode
  obtain ⟨hlen, -, hmax, -⟩ := encodedLength i
  have hwidth : (encode i).head? = some 0xA9#8 → (s.seatedForWord nbits w).acc8 = tableAcc8 nbits := fun hhead =>
    seatedForWord_acc8 s (by rw [hbytes, List.head?_append, hhead, Option.some_or])
  refine (fetch_ok_iff ..).mpr ⟨wellFormed_of_width_of_lda hform hwidth, ?_⟩
  rw [withFetchWord_eq, hbytes]
  exact readBytes_placeBytes (readyToPlace_seatedForWord hwf nbits w) (by omega)

/-- Settles O45: the placed core runs with no stop request, and it fetches the placed instruction. -/
theorem placedInstructionRuns : Obligations.PlacedInstructionRuns := by
  intro s nbits w i hwf h
  have hready := readyToPlace_seatedForWord hwf nbits w
  exact step_of_fetch_ok (s := s.withFetchWord nbits w) hready.running hready.noStop (fetch_withFetchWord hwf h)

end Sys2Proof.Machine
end
